-- ==== Sys2Proof/Word.lean ====
section
/-! DEFINITION. The word types of MD5-CORE: the widths of 00_scope.md R6 and the notation of R7. -/

namespace Sys2Proof

/-- R6, R10 "Word": "a 32-bit unsigned integer, the basic arithmetic unit of the algorithm".
`+` on it is the modular adder of R93, without carry, flag or error. -/
abbrev Word := BitVec 32

/-- One message, padding or digest byte (R6: the input granularity is 8 bits). -/
abbrev Byte := BitVec 8

/-- One command word of the host command port (R53: 16 bits, R58: there is no other length). -/
abbrev Cmd := BitVec 16

/-- A byte address of the block buffer (R36: 0..63, "an address outside 0..63 cannot be formed"). -/
abbrev Addr := BitVec 6

end Sys2Proof
end

