-- ==== Sys2Proof/Syntax.lean ====
section
/-! DEFINITION. The command set of MD5-CORE: one constructor per row of spec/opcode_table.json (R54). -/

namespace Sys2Proof

/-- The seven commands (R54, "MD5-CORE command set version 1").
The operand of a read command is the whole `imm8` field, read as an unsigned number (R55).
Its legal range is checked in `Instr.wf`, by the decoder (R59) and again by the meaning, as the pseudocode of R101, R102
and R104 does. -/
inductive Instr where
  /-- `NOP`, op 0x0 (R80). -/
  | nop
  /-- `INIT`, op 0x1 (R78). -/
  | init
  /-- `ABSORB b`, op 0x2 (R67): one message byte. -/
  | absorb (b : Byte)
  /-- `FINAL`, op 0x3 (R69). -/
  | final
  /-- `RDWORD w`, op 0x4 (R101): legal 0..3. -/
  | rdword (w : Byte)
  /-- `RDBYTE j`, op 0x5 (R102): legal 0..15. -/
  | rdbyte (j : Byte)
  /-- `RDHEX p`, op 0x6 (R104): legal 0..31. -/
  | rdhex (p : Byte)
  deriving DecidableEq, Repr

/-- The mnemonic of spec/opcode_table.json. -/
def Instr.mnemonic : Instr → String
  | .nop => "NOP"
  | .init => "INIT"
  | .absorb _ => "ABSORB"
  | .final => "FINAL"
  | .rdword _ => "RDWORD"
  | .rdbyte _ => "RDBYTE"
  | .rdhex _ => "RDHEX"

end Sys2Proof
end

