-- ==== Sys2Proof/WellFormed.lean ====
section
/-! DEFINITION. Which instruction terms stand for a command word: the operand ranges of R54 ("legal imm8"). -/

namespace Sys2Proof

/-- R54: every ABSORB byte is legal; a read command's index lies in its range (R112 names the error otherwise). -/
def Instr.wf : Instr → Bool
  | .nop => true
  | .init => true
  | .absorb _ => true
  | .final => true
  | .rdword w => decide (w.toNat ≤ 3)
  | .rdbyte j => decide (j.toNat ≤ 15)
  | .rdhex p => decide (p.toNat ≤ 31)

end Sys2Proof
end

