-- ==== Sys2Proof/Decode.lean ====
section
/-! DEFINITION. The decoder of 30_encoding.md (R53-R59), total on all 65536 command words, and the encoder written from the
same table. -/

namespace Sys2Proof

/-- The two decode errors of R59. Each is an error cause of R110, which the machine takes as fault entry (R119). -/
inductive DecodeError where
  /-- R56, R57, R111: a reserved opcode, a nonzero `rsv` field, or a nonzero `imm8` on NOP, INIT or FINAL. -/
  | illegalCommand
  /-- R112: a read command whose index lies above its range. -/
  | operandRange
  deriving DecidableEq, Repr

/-- R59: "Every 16-bit word w decodes to exactly one verdict". -/
inductive Verdict where
  | command (i : Instr)
  | error (e : DecodeError)
  deriving DecidableEq, Repr

/-- R53: bits [15:12], the opcode. -/
def opField (w : Cmd) : BitVec 4 := w.extractLsb' 12 4

/-- R53: bits [11:8], reserved, must be 0000. -/
def rsvField (w : Cmd) : BitVec 4 := w.extractLsb' 8 4

/-- R53, R55: bits [7:0], the operand, neither extended nor transformed. -/
def immField (w : Cmd) : Byte := w.extractLsb' 0 8

/-- R54: the command of a legal opcode with its operand. -/
def commandOf (op : BitVec 4) (imm : Byte) : Verdict :=
  match op.toNat with
  | 0 => .command .nop
  | 1 => .command .init
  | 2 => .command (.absorb imm)
  | 3 => .command .final
  | 4 => .command (.rdword imm)
  | 5 => .command (.rdbyte imm)
  | 6 => .command (.rdhex imm)
  | _ => .error .illegalCommand

/-- R59's `decode(w)`, check by check in its order: ILLEGAL_COMMAND before OPERAND_RANGE (R116). -/
def decode (w : Cmd) : Verdict :=
  let op := (opField w).toNat
  let imm := immField w
  if 7 ≤ op ∨ rsvField w ≠ 0#4 then .error .illegalCommand
  else if (op = 0 ∨ op = 1 ∨ op = 3) ∧ imm ≠ 0#8 then .error .illegalCommand
  else if op = 4 ∧ 3 < imm.toNat then .error .operandRange
  else if op = 5 ∧ 15 < imm.toNat then .error .operandRange
  else if op = 6 ∧ 31 < imm.toNat then .error .operandRange
  else commandOf (opField w) imm

/-- R53: the one command format, `oooo rrrr iiii iiii` with `rsv` = 0000. -/
def commandWord (op : BitVec 4) (imm : Byte) : Cmd := op ++ (0#4 ++ imm)

/-- The command word of an instruction (R54, R60). -/
def encode : Instr → Cmd
  | .nop => commandWord 0x0#4 0#8
  | .init => commandWord 0x1#4 0#8
  | .absorb b => commandWord 0x2#4 b
  | .final => commandWord 0x3#4 0#8
  | .rdword w => commandWord 0x4#4 w
  | .rdbyte j => commandWord 0x5#4 j
  | .rdhex p => commandWord 0x6#4 p

/-- One row of spec/opcode_table.json: the words `w` with `w &&& mask = pattern`. -/
structure OpcodeRow where
  mnemonic : String
  pattern : Cmd
  mask : Cmd
  deriving DecidableEq, Repr

/-- spec/opcode_table.json, row for row. -/
def opcodeTable : List OpcodeRow :=
  [ ⟨"NOP", 0x0000#16, 0xFFFF#16⟩,
    ⟨"INIT", 0x1000#16, 0xFFFF#16⟩,
    ⟨"ABSORB", 0x2000#16, 0xFF00#16⟩,
    ⟨"FINAL", 0x3000#16, 0xFFFF#16⟩,
    ⟨"RDWORD", 0x4000#16, 0xFFFC#16⟩,
    ⟨"RDBYTE", 0x5000#16, 0xFFF0#16⟩,
    ⟨"RDHEX", 0x6000#16, 0xFFE0#16⟩ ]

/-- A word lies in a row of the table. -/
def OpcodeRow.matches (r : OpcodeRow) (w : Cmd) : Bool := w &&& r.mask == r.pattern

/-- The command word the host's table numbers as `w`, of which it gives `nbits` bits; the bits above are zero.
A command is one 16-bit word on a 16-bit port (R51, R53), so bit 0 of `w` is bit 0 of the command. -/
def tableWord (nbits w : Nat) : Cmd := BitVec.ofNat 16 (w % 2 ^ nbits)

/-- What the decoder reads from a word of the opcode table.
No command is longer than 16 bits (R58), so a longer row has no instruction. -/
def decodeTableWord (nbits w : Nat) : Option Instr :=
  if 16 < nbits then none
  else
    match decode (tableWord nbits w) with
    | .command i => some i
    | .error _ => none

end Sys2Proof
end

