-- ==== Sys2Proof/Config.lean ====
section
/-! DEFINITION. What the spec leaves open: the platform parameter `N_ENGINES` (R6) and the free values a reset leaves in the
registers it does not reset (R30, R128, 93_implementation_defined.md U2 and U3). -/

namespace Sys2Proof.Config

/-- R6, U13: the values of the parameter `N_ENGINES`, the number of engines of a platform: at least 1. -/
abbrev NEngines : Type := Subtype (fun n : Nat => 1 ≤ n)

/-- R6, U13: the default of `N_ENGINES`. -/
def nEnginesDefault : NEngines := ⟨1, Nat.le_refl 1⟩

/-- Free values (assumption log 2): what working register number `i` (0 = W.a .. 3 = W.d) of engine `unit` holds after that
engine's reset number `draw`.
R30 and U2: "unspecified (any value)". It has no body, so no proof can see a value of it. -/
opaque freeWorking (unit draw i : Nat) : Word

/-- Free values (assumption log 2): what buffer byte `a` of engine `unit` holds after that engine's reset number `draw`.
R30 and U3: "unspecified (any value)". It has no body, so no proof can see a value of it. -/
opaque freeBuffer (unit draw a : Nat) : Byte

end Sys2Proof.Config
end

