-- ==== Sys2Proof/Machine/State.lean ====
section
/-! DEFINITION. The state of one MD5-CORE engine (10_state.md), the moves of its host, the causes of its faults, and the state
after reset (R30). -/

namespace Sys2Proof.Machine

/-- Four 32-bit words: the digest state `H[0..3]` = A, B, C, D (R13) and the working registers `W.a .. W.d` (R14). -/
structure Words4 where
  a : Word
  b : Word
  c : Word
  d : Word
  deriving DecidableEq, Repr

/-- The three BUSY states of R19: which block is being compressed. They are the arguments StartCompress takes (R83). -/
inductive Block where
  /-- COMP: a full message block, back to IDLE after it. -/
  | comp
  /-- COMP_PAD: the first of two padding blocks, COMP_LAST after it. -/
  | compPad
  /-- COMP_LAST: the final block, DONE after it. -/
  | compLast
  deriving DecidableEq, Repr

/-- The FSM register `state` (R19) as a type of six values (R34 allows it: encodings 6 and 7 are never entered).
COMP, COMP_PAD and COMP_LAST are `busy` with the block they compress. -/
inductive Fsm where
  | idle
  | busy (b : Block)
  | done
  | fault
  deriving DecidableEq, Repr

/-- The 3-bit encoding of R19. -/
def Fsm.code : Fsm → BitVec 3
  | .idle => 0#3
  | .busy .comp => 1#3
  | .busy .compPad => 2#3
  | .busy .compLast => 3#3
  | .done => 4#3
  | .fault => 5#3

/-- The error causes that are raised (R110). Code 5, INTERNAL_INVARIANT, is never raised (R115). -/
inductive Cause where
  | illegalCommand
  | operandRange
  | sequenceAfterFinal
  | readBeforeDone
  deriving DecidableEq, Repr

/-- The ECODE value of a cause (R110). -/
def Cause.code : Cause → BitVec 4
  | .illegalCommand => 1#4
  | .operandRange => 2#4
  | .sequenceAfterFinal => 3#4
  | .readBeforeDone => 4#4

/-- What the host and the platform do on the ports (R51, R132), in the order of time.
A host that changes `cmd` while it waits has no move (R132, U11): the list cannot say it. -/
inductive HostMove where
  /-- Present the command word `w` and keep it stable until it is accepted (R52, R132). -/
  | command (w : Cmd)
  /-- One edge with `cmd_valid` = 0, or with a command that is withdrawn before acceptance (R52, R132). -/
  | idle
  /-- One edge with `rst` = 1 (R127). -/
  | reset
  deriving DecidableEq, Repr

/-- The block buffer space (R35, R36): a list of (address, byte) in canonical form (`Memory.wf`, Machine/Ops.lean). -/
abbrev Memory := List Host.Cell

/-- What an address that the list does not name reads as.
DESIGN CHOICE, unsafe (assumption log 1): the spec leaves the buffer's bytes after reset unspecified (R30). -/
def Memory.unlisted : Byte := 0#8

/-- One engine. Every register of 10_state.md, then the host's pending moves, then two fields of the model's own. -/
structure State where
  /-- `H[0..3]`, the digest state (R13). -/
  H : Words4
  /-- `W`, the working registers (R14). -/
  W : Words4
  /-- `buf[0..63]`, the block buffer (R15). -/
  buf : Memory
  /-- `L`, the bit length absorbed, modulo 2^64 (R16). -/
  L : BitVec 64
  /-- `fill`, the fill pointer (R17). -/
  fill : BitVec 6
  /-- `rnd`, the round counter (R18). -/
  rnd : BitVec 6
  /-- `state`, the FSM state (R19). -/
  fsm : Fsm
  /-- `ECODE`, the error code register (R20). -/
  ecode : BitVec 4
  /-- `RDATA`, the read-data register (R21). -/
  rdata : Word
  /-- The host's moves not yet taken, next first: the command stream, which a model "takes as input of the host agent's
  steps" (R32). -/
  input : List HostMove
  /-- MODEL'S OWN (assumption log 2): the engine's number on its platform, read by nothing but the free values. -/
  unit : Nat
  /-- MODEL'S OWN (assumption log 2): how many times free values were drawn, advanced by each reset. -/
  draws : Nat
  deriving DecidableEq, Repr

/-- The ways the machine stops with a fault. MD5-CORE's own errors are not among them: they enter the FAULT state, which is a
next state (R119). -/
inductive Fault where
  /-- ECODE 5, INTERNAL_INVARIANT: a rotation amount out of range or a malformed block (R115, U7).
  Nobody raises it: the rotation amount has 5 bits and the block is the whole buffer, so neither condition can be expressed.
  Safe: that no step answers it is an obligation (`Obligations.StepNeverStops`). -/
  | internalInvariant
  deriving DecidableEq, Repr

/-- The ways the machine refuses an instruction. -/
inductive Refusal where
  /-- An instruction of the opcode table without a meaning. Nobody raises it: every arm of `exec` has its meaning. Safe. -/
  | notModelled (mnemonic : String)
  deriving DecidableEq, Repr

/-- R77: the fixed initial value of the digest state. -/
def iv : Words4 := ⟨0x67452301#32, 0xEFCDAB89#32, 0x98BADCFE#32, 0x10325476#32⟩

/-- The state after reset (R30). The host has presented nothing.
W and buf are zero: DESIGN CHOICE, unsafe (assumption log 1), R30 gives "unspecified (any value)". `unit` and `draws` are zero:
DESIGN CHOICE (assumption log 2). -/
def State.reset : State where
  H := iv
  W := ⟨0#32, 0#32, 0#32, 0#32⟩
  buf := []
  L := 0#64
  fill := 0#6
  rnd := 0#6
  fsm := .idle
  ecode := 0#4
  rdata := 0#32
  input := []
  unit := 0
  draws := 0

end Sys2Proof.Machine
end

