-- ==== Sys2Proof/Machine/Ops.lean ====
section
/-! DEFINITION. The shared operations over the block buffer and the registers: reading and writing the buffer (20_memory.md),
StartCompress (R83), fault entry (R119) and the reset action, the only way back from a fault (R121, R128). -/

namespace Sys2Proof.Machine

/-- Byte `j` of a word, least significant first: bits [8j+7 : 8j] (R38, R100). -/
def byteAt {n : Nat} (v : BitVec n) (j : Nat) : Byte := v.extractLsb' (8 * j) 8

/-- The cells name addresses from `lo` on, strictly rising and below 64, and none holds what an unlisted address reads as. -/
def Memory.wfFrom (lo : Nat) : Memory → Bool
  | [] => true
  | (a, v) :: m => decide (lo ≤ a) && decide (a < 64) && decide (v ≠ Memory.unlisted) && Memory.wfFrom (a + 1) m

/-- The canonical form: equal buffers are equal lists. -/
def Memory.wf (m : Memory) : Bool := Memory.wfFrom 0 m

/-- The byte at key `a` of the list. -/
def Memory.lookup (a : Nat) : Memory → Byte
  | [] => Memory.unlisted
  | (b, v) :: m => if a = b then v else Memory.lookup a m

/-- `MemRead(addr, 1)`: the byte `buf[a]` (R36). -/
def Memory.read (m : Memory) (a : Addr) : Byte := Memory.lookup a.toNat m

/-- Put a byte that differs from `Memory.unlisted` at its place in the rising list. -/
def Memory.place (a : Nat) (v : Byte) : Memory → Memory
  | [] => [(a, v)]
  | (b, x) :: m =>
    if a < b then (a, v) :: (b, x) :: m
    else if a = b then (a, v) :: m
    else (b, x) :: Memory.place a v m

/-- `MemWrite(addr, 1, v)`: `buf[a] <- v` (R8, R38), in canonical form. -/
def Memory.write (m : Memory) (a : Addr) (v : Byte) : Memory :=
  if v = Memory.unlisted then m.filter (fun c => c.1 != a.toNat) else Memory.place a.toNat v m

/-- `n` one-byte writes from address `start` upwards, the byte at address `a` being `f a`. -/
def Memory.writeRange (m : Memory) (f : Nat → Byte) (start : Nat) : Nat → Memory
  | 0 => m
  | n + 1 => Memory.writeRange (m.write (BitVec.ofNat 6 start) (f start)) f (start + 1) n

/-- `MemWrite(addr, n, v)`: the `n` bytes of `v`, least significant first, from `addr` on (R8, R38). -/
def Memory.writeLE (m : Memory) (addr : Addr) (n : Nat) {k : Nat} (v : BitVec k) : Memory :=
  m.writeRange (fun a => byteAt v (a - addr.toNat)) addr.toNat n

/-- `MemRead(addr, n)` as a number: the sum over j < n of `buf[addr + j] * 2^(8j)` (R38). -/
def Memory.readLE (m : Memory) (addr : Addr) : Nat → Nat
  | 0 => 0
  | n + 1 => Memory.readLE m addr n + (m.read (addr + BitVec.ofNat 6 n)).toNat * 2 ^ (8 * n)

/-- Message word k of the block in the buffer: `M[k] = MemRead(4k, 4)` (R38). -/
def messageWord (m : Memory) (k : BitVec 4) : Word := BitVec.ofNat 32 (m.readLE (BitVec.ofNat 6 (4 * k.toNat)) 4)

/-- Componentwise addition modulo 2^32 (R93, R96). -/
def Words4.add (x y : Words4) : Words4 := ⟨x.a + y.a, x.b + y.b, x.c + y.c, x.d + y.d⟩

/-- StartCompress (R83): save a working copy of H, round 0, and the BUSY state of the block. -/
def startCompress (b : Block) (s : State) : State := { s with W := s.H, rnd := 0#6, fsm := .busy b }

/-- Fault entry (R119): `raise E(code)`. Nothing but ECODE and `state` changes (R117, R118). -/
def raise (c : Cause) (s : State) : State := { s with ecode := c.code, fsm := .fault }

/-- The working registers after a reset: free values (R30, U2). -/
def freeWords (unit draw : Nat) : Words4 :=
  ⟨Config.freeWorking unit draw 0, Config.freeWorking unit draw 1, Config.freeWorking unit draw 2,
    Config.freeWorking unit draw 3⟩

/-- The reset action (R128), the only way out of FAULT (R121): every register at its value of R30, W and buf at free values.
The host's pending moves are the host's and stay. -/
def resetAction (s : State) : State :=
  { s with
    H := iv
    W := freeWords s.unit s.draws
    buf := Memory.writeRange [] (Config.freeBuffer s.unit s.draws) 0 64
    L := 0#64
    fill := 0#6
    rnd := 0#6
    fsm := .idle
    ecode := 0#4
    rdata := 0#32
    draws := s.draws + 1 }

end Sys2Proof.Machine
end

