-- ==== Sys2Proof/Machine/Init.lean ====
section
/-! DEFINITION. The meanings of NOP and INIT (41_init.md R77-R81). -/

namespace Sys2Proof.Machine

/-- INIT's effect (R78): the IV into H, and L, fill, rnd and `state` cleared.
W, buf and RDATA are not written (R81), nor is ECODE.
DESIGN CHOICE (assumption log 13): INIT twice is INIT once, as R78 says; R44 calls INIT not idempotent, and no ruling of
90_conflicts.md settles it. -/
def initMessage (s : State) : State := { s with H := iv, L := 0#64, fill := 0#6, rnd := 0#6, fsm := .idle }

/-- NOP (R80): no effect in any state.
In FAULT it is discarded (R120) and while BUSY it is not accepted (R131), which is no effect either. -/
def execNop (s : State) : Host.Outcome State Fault Refusal := .next s

/-- INIT (R78): legal in IDLE and DONE, discarded in FAULT (R120), not accepted while BUSY (R131). -/
def execInit (s : State) : Host.Outcome State Fault Refusal :=
  match s.fsm with
  | .fault => .next s
  | .busy _ => .next s
  | .idle => .next (initMessage s)
  | .done => .next (initMessage s)

end Sys2Proof.Machine
end

