-- ==== Sys2Proof/Machine/Operands.lean ====
section
/-! DEFINITION. What the read commands' operands select: the words, bytes and hex characters of the digest in H (43_output.md
R100-R104), and the shared form of the three read commands. -/

namespace Sys2Proof.Machine

/-- `H[w]` for w = 0..3 (0 = A, 1 = B, 2 = C, 3 = D, R8). -/
def Words4.word (x : Words4) (w : BitVec 2) : Word :=
  match w.toNat with
  | 0 => x.a
  | 1 => x.b
  | 2 => x.c
  | _ => x.d

/-- Digest byte `D[j]`, j = 0..15 (R100): byte j mod 4 of `H[j div 4]`. -/
def digestByte (h : Words4) (j : BitVec 4) : Byte := byteAt (h.word (BitVec.ofNat 2 (j.toNat / 4))) (j.toNat % 4)

/-- `HexChar(n)` (R103): the ASCII code of the lowercase hex digit. -/
def hexChar (n : BitVec 4) : Byte :=
  if n.toNat ≤ 9 then BitVec.ofNat 8 (0x30 + n.toNat) else BitVec.ofNat 8 (0x61 + (n.toNat - 10))

/-- Nibble `n(p)` of the digest, p = 0..31 (R103): the most significant nibble of each byte first. -/
def digestNibble (h : Words4) (p : BitVec 5) : BitVec 4 :=
  let byte := digestByte h (BitVec.ofNat 4 (p.toNat / 2))
  if p.toNat % 2 = 0 then byte.extractLsb' 4 4 else byte.extractLsb' 0 4

/-- The cause of a decode error (R110). -/
def causeOf : DecodeError → Cause
  | .illegalCommand => .illegalCommand
  | .operandRange => .operandRange

/-- The form R101, R102 and R104 share: discarded in FAULT (R120), not accepted while BUSY (R131), OPERAND_RANGE before
READ_BEFORE_DONE (R116), and in DONE the value goes to RDATA and nothing else changes. -/
def readCommand (bound : Nat) (imm : Byte) (value : Word) (s : State) : State :=
  match s.fsm with
  | .fault => s
  | .busy _ => s
  | .idle => if bound < imm.toNat then raise .operandRange s else raise .readBeforeDone s
  | .done => if bound < imm.toNat then raise .operandRange s else { s with rdata := value }

end Sys2Proof.Machine
end

