-- ==== Sys2Proof/Machine/Output.lean ====
section
/-! DEFINITION. The output serializer: the meanings of RDWORD, RDBYTE and RDHEX (43_output.md R101-R104). -/

namespace Sys2Proof.Machine

/-- RDWORD w (R101): `RDATA <- H[w]`. -/
def execRdword (w : Byte) (s : State) : Host.Outcome State Fault Refusal :=
  .next (readCommand 3 w (s.H.word (w.setWidth 2)) s)

/-- RDBYTE j (R102): `RDATA <- zext_32(D[j])`. -/
def execRdbyte (j : Byte) (s : State) : Host.Outcome State Fault Refusal :=
  .next (readCommand 15 j ((digestByte s.H (j.setWidth 4)).setWidth 32) s)

/-- RDHEX p (R104): `RDATA <- zext_32(HexChar(n(p)))`. -/
def execRdhex (p : Byte) (s : State) : Host.Outcome State Fault Refusal :=
  .next (readCommand 31 p ((hexChar (digestNibble s.H (p.setWidth 5))).setWidth 32) s)

end Sys2Proof.Machine
end

