-- ==== Sys2Proof/Machine/Padding.lean ====
section
/-! DEFINITION. The bit-padding unit: the meanings of ABSORB and FINAL and the loading of the second padding block
(40_padding_length.md R67-R72). -/

namespace Sys2Proof.Machine

/-- ABSORB's effect in IDLE (R67): the byte into `buf[fill]`, L advanced by 8 modulo 2^64 (R68), and the 64th byte of a block
starts its compression. -/
def absorbByte (b : Byte) (s : State) : State :=
  let s' := { s with buf := s.buf.write s.fill b, L := s.L + 8#64 }
  if s.fill = 63#6 then startCompress .comp { s' with fill := 0#6 } else { s' with fill := s.fill + 1#6 }

/-- The padding after the message bytes of a block: 0x80 at address `f`, zeros at f+1..63 (R69). -/
def padTail (f : BitVec 6) (m : Memory) : Memory :=
  (m.write f 0x80#8).writeRange (fun _ => 0#8) (f.toNat + 1) (63 - f.toNat)

/-- The length append: `MemWrite(56, 8, L)` (R39). -/
def appendLength (L : BitVec 64) (m : Memory) : Memory := m.writeLE 56#6 8 L

/-- FINAL's effect in IDLE (R69): the length goes into this block if fill is at most 55 (R70), else a second padding block
follows (R71). -/
def finalPad (s : State) : State :=
  let m := padTail s.fill s.buf
  if s.fill.toNat ≤ 55 then startCompress .compLast { s with buf := appendLength s.L m, fill := 0#6 }
  else startCompress .compPad { s with buf := m, fill := 0#6 }

/-- LoadLengthBlock (R72): 56 zero bytes and the length, compressed as the last block. -/
def loadLengthBlock (s : State) : State :=
  startCompress .compLast { s with buf := appendLength s.L (s.buf.writeRange (fun _ => 0#8) 0 56) }

/-- ABSORB (R67): discarded in FAULT (R120), not accepted while BUSY (R131), SEQUENCE_AFTER_FINAL in DONE (R113). -/
def execAbsorb (b : Byte) (s : State) : Host.Outcome State Fault Refusal :=
  match s.fsm with
  | .fault => .next s
  | .busy _ => .next s
  | .done => .next (raise .sequenceAfterFinal s)
  | .idle => .next (absorbByte b s)

/-- FINAL (R69): discarded in FAULT (R120), not accepted while BUSY (R131), SEQUENCE_AFTER_FINAL in DONE (R113). -/
def execFinal (s : State) : Host.Outcome State Fault Refusal :=
  match s.fsm with
  | .fault => .next s
  | .busy _ => .next s
  | .done => .next (raise .sequenceAfterFinal s)
  | .idle => .next (finalPad s)

end Sys2Proof.Machine
end

