-- ==== Sys2Proof/Machine/Dispatch.lean ====
section
/-! DEFINITION. The meaning of each command, one arm per row of spec/opcode_table.json (R54). -/

namespace Sys2Proof.Machine

def exec (i : Instr) (s : State) : Host.Outcome State Fault Refusal :=
  match i with
  | .nop => Sys2Proof.Machine.execNop s
  | .init => Sys2Proof.Machine.execInit s
  | .absorb b => Sys2Proof.Machine.execAbsorb b s
  | .final => Sys2Proof.Machine.execFinal s
  | .rdword w => Sys2Proof.Machine.execRdword w s
  | .rdbyte j => Sys2Proof.Machine.execRdbyte j s
  | .rdhex p => Sys2Proof.Machine.execRdhex p s

end Sys2Proof.Machine
end

