-- ==== Sys2Proof/Machine/Engine.lean ====
section
/-! DEFINITION. The compression engine: the round-constant ROM, the shift ROM, the message index, the auxiliary functions and
their mux, the rotator, and the round step with the end of a block (42_compression.md R82-R99). -/

namespace Sys2Proof.Machine

/-! ### Auxiliary functions (R88-R91) and the mux's select (R92) -/

/-- F (R88): each bit of x selects the bit of y or of z. -/
def auxF (x y z : Word) : Word := (x &&& y) ||| (~~~x &&& z)

/-- G (R89): each bit of z selects the bit of x or of y. -/
def auxG (x y z : Word) : Word := (x &&& z) ||| (y &&& ~~~z)

/-- Hf (R90). -/
def auxHf (x y z : Word) : Word := x ^^^ y ^^^ z

/-- I (R91). -/
def auxI (x y z : Word) : Word := y ^^^ (x ||| ~~~z)

/-- A quadrant of 16 rounds (R10 "Quadrant", R92). -/
inductive Quadrant where
  | q0
  | q1
  | q2
  | q3
  deriving DecidableEq, Repr

/-- q = rnd[5:4], that is rnd div 16 (R92). -/
def quadrant (r : BitVec 6) : Quadrant :=
  match r.toNat / 16 with
  | 0 => .q0
  | 1 => .q1
  | 2 => .q2
  | _ => .q3

/-- The auxiliary-function mux (R92). -/
def auxMux (q : Quadrant) (x y z : Word) : Word :=
  match q with
  | .q0 => auxF x y z
  | .q1 => auxG x y z
  | .q2 => auxHf x y z
  | .q3 => auxI x y z

/-! ### The ROMs and the message index (R84-R87) -/

/-- Addresses 0..15 of the round-constant ROM (R84). -/
def tRomQ0 : Vector Word 16 :=
  #v[
      0xD76AA478, 0xE8C7B756, 0x242070DB, 0xC1BDCEEE,
      0xF57C0FAF, 0x4787C62A, 0xA8304613, 0xFD469501,
      0x698098D8, 0x8B44F7AF, 0xFFFF5BB1, 0x895CD7BE,
      0x6B901122, 0xFD987193, 0xA679438E, 0x49B40821
    ]

/-- Addresses 16..31 of the round-constant ROM (R84). -/
def tRomQ1 : Vector Word 16 :=
  #v[
      0xF61E2562, 0xC040B340, 0x265E5A51, 0xE9B6C7AA,
      0xD62F105D, 0x02441453, 0xD8A1E681, 0xE7D3FBC8,
      0x21E1CDE6, 0xC33707D6, 0xF4D50D87, 0x455A14ED,
      0xA9E3E905, 0xFCEFA3F8, 0x676F02D9, 0x8D2A4C8A
    ]

/-- Addresses 32..47 of the round-constant ROM (R84). -/
def tRomQ2 : Vector Word 16 :=
  #v[
      0xFFFA3942, 0x8771F681, 0x6D9D6122, 0xFDE5380C,
      0xA4BEEA44, 0x4BDECFA9, 0xF6BB4B60, 0xBEBFBC70,
      0x289B7EC6, 0xEAA127FA, 0xD4EF3085, 0x04881D05,
      0xD9D4D039, 0xE6DB99E5, 0x1FA27CF8, 0xC4AC5665
    ]

/-- Addresses 48..63 of the round-constant ROM (R84). -/
def tRomQ3 : Vector Word 16 :=
  #v[
      0xF4292244, 0x432AFF97, 0xAB9423A7, 0xFC93A039,
      0x655B59C3, 0x8F0CCC92, 0xFFEFF47D, 0x85845DD1,
      0x6FA87E4F, 0xFE2CE6E0, 0xA3014314, 0x4E0811A1,
      0xF7537E82, 0xBD3AF235, 0x2AD7D2BB, 0xEB86D391
    ]

/-- `T_ROM[r]` (R84, R85): ROM address r holds the formula's entry r + 1. -/
def tRom (r : BitVec 6) : Word :=
  let j : Fin 16 := ⟨r.toNat % 16, Nat.mod_lt _ (by decide)⟩
  match quadrant r with
  | .q0 => tRomQ0[j]
  | .q1 => tRomQ1[j]
  | .q2 => tRomQ2[j]
  | .q3 => tRomQ3[j]

/-- The shift ROM's rows (R86): 5 bits an entry, so no amount of 32 or more can be stored. -/
def sRomRow : Quadrant → Vector (BitVec 5) 4
  | .q0 => #v[7, 12, 17, 22]
  | .q1 => #v[5, 9, 14, 20]
  | .q2 => #v[4, 11, 16, 23]
  | .q3 => #v[6, 10, 15, 21]

/-- `S_ROM[r div 16][r mod 4]` (R86). -/
def sRom (r : BitVec 6) : BitVec 5 :=
  let j : Fin 4 := ⟨r.toNat % 4, Nat.mod_lt _ (by decide)⟩
  (sRomRow (quadrant r))[j]

/-- The message word index k(r), a 4-bit value (R87). -/
def kIndex (r : BitVec 6) : BitVec 4 :=
  match quadrant r with
  | .q0 => BitVec.ofNat 4 r.toNat
  | .q1 => BitVec.ofNat 4 (5 * r.toNat + 1)
  | .q2 => BitVec.ofNat 4 (3 * r.toNat + 5)
  | .q3 => BitVec.ofNat 4 (7 * r.toNat)

/-! ### Rotator and round (R94, R95) -/

/-- The rotator (R94). A shift by 32, at amount 0, gives zero, so amount 0 is the identity. -/
def rotl32 (v : Word) (s : BitVec 5) : Word := (v <<< s.toNat) ||| (v >>> (32 - s.toNat))

/-- One round on the working registers, with the message word it uses (R95). All four writes use the old values. -/
def roundWords (r : BitVec 6) (w : Words4) (m : Word) : Words4 :=
  let f := auxMux (quadrant r) w.b w.c w.d
  let t := rotl32 (w.a + f + m + tRom r) (sRom r) + w.b
  ⟨w.d, t, w.b, w.c⟩

/-! ### The engine's steps (R95-R97) -/

/-- BlockDone (R97): the transition at the end of a block, by the state it was compressed in. -/
def blockDone (b : Block) (s : State) : State :=
  match b with
  | .comp => { s with fsm := .idle }
  | .compPad => loadLengthBlock s
  | .compLast => { s with fsm := .done }

/-- EndOfBlock (R96): the accumulation into H, then BlockDone. -/
def endOfBlock (b : Block) (s : State) : State := blockDone b { s with H := s.H.add s.W, rnd := 0#6 }

/-- RoundStep (R95): one engine step of the block `b` in the buffer. It is enabled while BUSY = 1. -/
def roundStep (b : Block) (s : State) : State :=
  let s' := { s with W := roundWords s.rnd s.W (messageWord s.buf (kIndex s.rnd)) }
  if s.rnd = 63#6 then endOfBlock b s' else { s' with rnd := s.rnd + 1#6 }

end Sys2Proof.Machine
end

