-- ==== Sys2Proof/Machine/Flags.lean ====
section
/-! DEFINITION. The flags and the outputs of the ports: BUSY, DONE, ERR (R23-R25), `cmd_ready` (R26), the STATUS word (R22) and
`rdata` (R21, R133). They are functions of the registers and have no storage of their own. -/

namespace Sys2Proof.Machine

/-- BUSY (R23). -/
def State.isBusy (s : State) : Bool :=
  match s.fsm with
  | .busy _ => true
  | _ => false

/-- DONE (R24): `state` = DONE, so fault entry clears it as well (R119). -/
def State.isDone (s : State) : Bool :=
  match s.fsm with
  | .done => true
  | _ => false

/-- ERR (R25). -/
def State.isErr (s : State) : Bool :=
  match s.fsm with
  | .fault => true
  | _ => false

/-- `cmd_ready = ~BUSY` (R26). -/
def State.cmdReady (s : State) : Bool := !s.isBusy

/-- STATUS (R22): `{2'b0, rnd, 5'b0, state, 2'b0, fill, ECODE, 1'b0, ERR, DONE, BUSY}`. -/
def State.status (s : State) : BitVec 32 :=
  0#2 ++ s.rnd ++ 0#5 ++ s.fsm.code ++ 0#2 ++ s.fill ++ s.ecode ++ 0#1
    ++ BitVec.ofBool s.isErr ++ BitVec.ofBool s.isDone ++ BitVec.ofBool s.isBusy

/-- What the host reads on the output ports (R51): STATUS and RDATA "after the last completed step" (R132, R133), and
`cmd_ready`. Reading changes nothing (R22, R44). -/
structure PortsOut where
  cmdReady : Bool
  rdata : BitVec 32
  status : BitVec 32
  deriving DecidableEq, Repr

/-- The output ports of a state. -/
def State.ports (s : State) : PortsOut := ⟨s.cmdReady, s.rdata, s.status⟩

end Sys2Proof.Machine
end

