-- ==== Sys2Proof/Machine/Port.lean ====
section
/-! DEFINITION. The ports (R51): what one rising edge of `clk` does for every value of the input pins, and the pins of the host's
next move. -/

namespace Sys2Proof.Machine

/-- The input pins at one rising edge of `clk` (R51). -/
structure Pins where
  rst : Bool
  cmdValid : Bool
  cmd : Cmd
  deriving DecidableEq, Repr

/-- No reset and no command (R52: an edge with `cmd_valid` = 0). -/
def Pins.quiet : Pins := ⟨false, false, 0#16⟩

/-- A command word is accepted (R52): discarded undecoded in FAULT (R120), else decoded (R59), a decode error entering FAULT
(R111, R112, R119) and a command taking its meaning. -/
def accept (w : Cmd) (s : State) : Host.Outcome State Fault Refusal :=
  match s.fsm with
  | .fault => .next s
  | .idle | .done | .busy _ =>
    match decode w with
    | .error e => .next (raise (causeOf e) s)
    | .command i => exec i s

/-- One rising edge of `clk`: reset and nothing else when `rst` = 1 (R127), one round while BUSY, when no command is accepted
(R95, R131), else the command if one is presented (R52), else nothing (R52, R126). -/
def edge (p : Pins) (s : State) : Host.Outcome State Fault Refusal :=
  if p.rst then .next (resetAction s)
  else
    match s.fsm with
    | .busy b => .next (roundStep b s)
    | .idle | .done | .fault => if p.cmdValid then accept p.cmd s else .next s

/-- The pins of the host's next move, and the state with that move taken from the queue.
A command presented while `cmd_ready` = 0 is held: it stays first in the queue (R131).
A host that has no move left leaves the pins quiet (R132 "end of run"). -/
def takeMove (s : State) : Pins × State :=
  match s.input with
  | [] => (Pins.quiet, s)
  | .reset :: rest => (⟨true, false, 0#16⟩, { s with input := rest })
  | .idle :: rest => (Pins.quiet, { s with input := rest })
  | .command w :: rest => (⟨false, true, w⟩, if s.isBusy then s else { s with input := rest })

end Sys2Proof.Machine
end

