-- ==== Sys2Proof/Machine/Step.lean ====
section
/-! DEFINITION. One step of the machine: one edge with the pins of the host's next move.
The order of effects is that of the transaction-level model (R11): a command takes its whole effect in the step that accepts it,
and a busy engine takes one round a step. -/

namespace Sys2Proof.Machine

/-- One step (R11, R52, R127, R131). -/
def step (s : State) : Host.Outcome State Fault Refusal := edge (takeMove s).1 (takeMove s).2

/-- The host presents a command word before its other moves (assumption log 4): MD5-CORE fetches no instruction (R27, R42), its
program is the host's command stream.
The next step accepts the word, unless the engine is BUSY, when the word waits as R131 says. -/
def State.withFetchWord (s : State) (nbits w : Nat) : State :=
  { s with input := .command (tableWord nbits w) :: s.input }

end Sys2Proof.Machine
end

