-- ==== Sys2Proof/Machine/Assembler.lean ====
section
/-! DEFINITION. The host's assembler: the forms of R60 and the pseudo-instructions of R61, as data (assumption log 5: the
characters of a source line are not modelled). -/

namespace Sys2Proof.Machine

/-- The operand of ABSORB (R60): a number, or a quoted character, which stands for its byte in the host's text encoding. -/
inductive ByteOperand where
  | number (n : Nat)
  | quoted (b : Byte)
  deriving DecidableEq, Repr

/-- The operand of RDWORD (R60): a number, or the word's name. -/
inductive WordOperand where
  | number (n : Nat)
  | nameA
  | nameB
  | nameC
  | nameD
  deriving DecidableEq, Repr

/-- One line of assembly (R60). -/
inductive AsmLine where
  | nop
  | init
  | absorb (o : ByteOperand)
  | final
  | rdword (o : WordOperand)
  | rdbyte (n : Nat)
  | rdhex (n : Nat)
  deriving DecidableEq, Repr

/-- A number that fits the 8-bit operand field. -/
def byteOf? (n : Nat) : Option Byte := if n ≤ 255 then some (BitVec.ofNat 8 n) else none

/-- The index a word operand names (R8: 0 = A .. 3 = D). -/
def WordOperand.index : WordOperand → Nat
  | .number n => n
  | .nameA => 0
  | .nameB => 1
  | .nameC => 2
  | .nameD => 3

/-- An index in a range, as an operand. -/
def indexOf? (bound n : Nat) : Option Byte := if n ≤ bound then some (BitVec.ofNat 8 n) else none

/-- The command word of a line (R60); a line whose operand is out of its range has none. -/
def assemble : AsmLine → Option Cmd
  | .nop => some 0x0000#16
  | .init => some 0x1000#16
  | .absorb (.number n) => (byteOf? n).map (fun b => 0x2000#16 ||| b.setWidth 16)
  | .absorb (.quoted b) => some (0x2000#16 ||| b.setWidth 16)
  | .final => some 0x3000#16
  | .rdword o => (indexOf? 3 o.index).map (fun w => 0x4000#16 ||| w.setWidth 16)
  | .rdbyte n => (indexOf? 15 n).map (fun j => 0x5000#16 ||| j.setWidth 16)
  | .rdhex n => (indexOf? 31 n).map (fun p => 0x6000#16 ||| p.setWidth 16)

/-- A line that stands for a command gives the command (R60, R54). -/
def AsmLine.instr? : AsmLine → Option Instr
  | .nop => some .nop
  | .init => some .init
  | .absorb (.number n) => (byteOf? n).map .absorb
  | .absorb (.quoted b) => some (.absorb b)
  | .final => some .final
  | .rdword o => (indexOf? 3 o.index).map .rdword
  | .rdbyte n => (indexOf? 15 n).map .rdbyte
  | .rdhex n => (indexOf? 31 n).map .rdhex

/-- The pseudo-instructions (R61). -/
inductive Pseudo where
  | absorbs (m : List Byte)
  | wait
  | hash (m : List Byte)
  | rdhexall
  | rddigest
  deriving DecidableEq, Repr

/-- Their expansions (R61). WAIT issues no command: the host polls, and the handshake waits as well. -/
def Pseudo.expand : Pseudo → List Instr
  | .absorbs m => m.map .absorb
  | .wait => []
  | .hash m => .init :: (m.map .absorb ++ [.final])
  | .rdhexall => (List.range 32).map (fun p => .rdhex (BitVec.ofNat 8 p))
  | .rddigest => (List.range 4).map (fun w => .rdword (BitVec.ofNat 8 w))

/-- The host presents commands one after the other. -/
def present (is : List Instr) : List HostMove := is.map (fun i => .command (encode i))

end Sys2Proof.Machine
end

