-- ==== Sys2Proof/Machine/Platform.lean ====
section
/-! DEFINITION. A platform of `N_ENGINES` engines (R6, R50, R125): each has its own copy of all the state and its own host, and no
step of one reads or writes another's. -/

namespace Sys2Proof.Machine

/-- The engines, in any order of numbering (R125: no command sees an identifier). -/
structure Platform where
  engines : List State
  deriving DecidableEq, Repr

/-- `N_ENGINES` engines (R6, 1 when nothing is said), each after its own reset (R125). -/
def Platform.reset (n : Config.NEngines := Config.nEnginesDefault) : Platform :=
  ⟨(List.range n.val).map (fun i => { State.reset with unit := i })⟩

/-- R6: a platform has at least one engine. `Platform.reset` gives one, and no step changes the number
(`Obligations.PlatformKeepsItsEngines`). -/
def Platform.wf (p : Platform) : Bool := decide (1 ≤ p.engines.length)

/-- Engine `i` takes a step; which engine steps next is the caller's choice, "any interleaving" (R50).
Where there is no engine `i` nothing happens. -/
def Platform.stepEngine (p : Platform) (i : Nat) : Host.Outcome Platform Fault Refusal :=
  match p.engines[i]? with
  | none => .next p
  | some s =>
    match step s with
    | .next t => .next ⟨p.engines.set i t⟩
    | .fault r => .fault r
    | .refused r => .refused r

end Sys2Proof.Machine
end

