-- ==== Sys2Proof/Machine/Digest.lean ====
section
/-! DEFINITION. The document's algorithm on a whole message, beside the machine: the padded message (R63, R64), its blocks (R66),
the block function (R82), the digest state (R76) and the digest as bytes and as hex characters (R100, R103, R105).
The machine never calls these: they are what its runs are compared with. -/

namespace Sys2Proof.Machine

/-- The 8 bits of a byte in message order, most significant first (R37). -/
def bitsOfByte (b : Byte) : List Bool := (List.range 8).map (fun i => b.getLsbD (7 - i))

/-- The bit sequence of a byte sequence (R37). -/
def bitsOf (m : List Byte) : List Bool := m.flatMap bitsOfByte

/-- The length field's value: 8 times the byte count, modulo 2^64 (R63 (c), R65). -/
def lengthField (m : List Byte) : BitVec 64 := BitVec.ofNat 64 (8 * m.length)

/-- `LE64(v)`: the 8 bytes of v, least significant first (R8). -/
def le64 (v : BitVec 64) : List Byte := (List.range 8).map (byteAt v)

/-- The number of zero bytes, `z = (55 - n) mod 64` (R64). -/
def zeroCount (n : Nat) : Nat := ((55 - (n : Int)) % 64).toNat

/-- The padded message in bytes (R64). -/
def paddedMessage (m : List Byte) : List Byte :=
  m ++ [0x80#8] ++ List.replicate (zeroCount m.length) 0#8 ++ le64 (lengthField m)

/-- The number of blocks of a message of n bytes (R66). -/
def blockCount (n : Nat) : Nat := (n + 8) / 64 + 1

/-- The full 64-byte blocks of a byte sequence, in order (R10 "Block"). -/
def blocks (p : List Byte) : List (List Byte) := (List.range (p.length / 64)).map (fun i => (p.drop (64 * i)).take 64)

/-- Message word k of a block: 4 bytes, least significant first (R38). -/
def blockWord (block : List Byte) (k : BitVec 4) : Word :=
  let byte := fun j => (block.getD (4 * k.toNat + j) 0#8).toNat
  BitVec.ofNat 32 (byte 0 + byte 1 * 2 ^ 8 + byte 2 * 2 ^ 16 + byte 3 * 2 ^ 24)

/-- The first n rounds of a block with message words M (R82). -/
def rounds (M : BitVec 4 → Word) : Nat → Words4 → Words4
  | 0, w => w
  | n + 1, w => roundWords (BitVec.ofNat 6 n) (rounds M n w) (M (kIndex (BitVec.ofNat 6 n)))

/-- The block function `Compress(H, M)` (R82). -/
def compress (h : Words4) (M : BitVec 4 → Word) : Words4 := h.add (rounds M 64 h)

/-- The chaining value after the full blocks of a byte sequence, from the IV, in order (R47, R82). -/
def chain (p : List Byte) : Words4 := (blocks p).foldl (fun h block => compress h (blockWord block)) iv

/-- The document's digest state of a message (R76). -/
def digestState (m : List Byte) : Words4 := chain (paddedMessage m)

/-- The 16 digest bytes (R100). -/
def digestBytes (m : List Byte) : List Byte :=
  (List.range 16).map (fun j => digestByte (digestState m) (BitVec.ofNat 4 j))

/-- The 32 hex characters of the digest (R103, R105), in ASCII. -/
def hexDigest (m : List Byte) : List Byte :=
  (List.range 32).map (fun p => hexChar (digestNibble (digestState m) (BitVec.ofNat 5 p)))

end Sys2Proof.Machine
end

