-- ==== Sys2Proof/Safety.lean ====
section
/-! DEFINITION. What claims about runs are stated in: the invariant of R29, the ends of a run (R138), what has been absorbed so
far (R16, R36, R76), and when two engines agree on all that a rule lets matter (R31, R33, R99). -/

namespace Sys2Proof.Machine

/-- `k` steps, as the host runs them. -/
def run (k : Nat) (s : State) : Host.Outcome State Fault Refusal := Sys2Proof.core.run k s

/-- R29, with the buffer's canonical form and the causes that fault entry can record (R110, R119).
`fill <= 63` and `state ∈ {0..5}` hold by the types of `fill` and `fsm`. -/
structure State.Inv (s : State) : Prop where
  buf_wf : s.buf.wf = true
  rnd_zero : s.isBusy = false → s.rnd = 0#6
  fill_zero : s.isBusy = true ∨ s.isDone = true → s.fill = 0#6
  len_bytes : s.L.toNat % 8 = 0
  ecode_zero : s.ecode = 0#4 ↔ s.isErr = false
  ecode_cause : s.ecode.toNat ≤ 4

/-- The ends of a run (R138). -/
inductive RunEnd where
  /-- DONE: the digest is in H. -/
  | digest
  /-- IDLE: FINAL was never issued. -/
  | noDigest
  /-- FAULT: "never a successful end". -/
  | failed
  deriving DecidableEq, Repr

/-- A move that presents a command word; an idle edge and a reset are no commands. -/
def HostMove.isCommand : HostMove → Bool
  | .command _ => true
  | .idle => false
  | .reset => false

/-- R138: the run is over "when the host has issued its last command and BUSY = 0".
Idle edges may be left, and a reset too, which starts another run (R130). -/
def State.runEnd (s : State) : Option RunEnd :=
  if s.input.any HostMove.isCommand then none
  else
    match s.fsm with
    | .idle => some .noDigest
    | .busy _ => none
    | .done => some .digest
    | .fault => some .failed

/-- In IDLE, the bytes absorbed since the last INIT or reset are `m`: L counts them (R16), the full blocks are compressed into H
(R82) and the rest lies in the buffer from address 0 on (R36). -/
structure State.Absorbed (s : State) (m : List Byte) : Prop where
  idle : s.fsm = .idle
  rnd_zero : s.rnd = 0#6
  len : s.L = lengthField m
  fill_eq : s.fill.toNat = m.length % 64
  chained : s.H = chain m
  tail : ∀ a < m.length % 64, s.buf.read (BitVec.ofNat 6 a) = m.getD (64 * (m.length / 64) + a) 0#8

/-- Two engines agree on everything but what R30 and R31 call unspecified and never read: W outside a compression, and the buffer
bytes not yet written for the block being assembled. The model's own fields may differ too. -/
structure State.Agree (s t : State) : Prop where
  H : s.H = t.H
  L : s.L = t.L
  fill : s.fill = t.fill
  rnd : s.rnd = t.rnd
  fsm : s.fsm = t.fsm
  ecode : s.ecode = t.ecode
  rdata : s.rdata = t.rdata
  input : s.input = t.input
  W : s.isBusy = true → s.W = t.W
  buf : ∀ a : Addr, s.isBusy = true ∨ a.toNat < s.fill.toNat → s.buf.read a = t.buf.read a

/-- Two engines show the host the same outputs and have the same moves before them, whatever H, W, buf and L hold (R33). -/
structure State.SameView (s t : State) : Prop where
  fill : s.fill = t.fill
  rnd : s.rnd = t.rnd
  fsm : s.fsm = t.fsm
  ecode : s.ecode = t.ecode
  rdata : s.rdata = t.rdata
  input : s.input = t.input

/-- The next step accepts the command word of `i` and executes it: the host presents it, the engine is not BUSY (R52), and it is
not in FAULT, where the word would be discarded (R120). -/
def State.Accepts (s : State) (i : Instr) : Prop :=
  s.isBusy = false ∧ s.isErr = false ∧ ∃ w rest, s.input = .command w :: rest ∧ decode w = .command i

/-- The next step is a reset (R127). -/
def State.AtReset (s : State) : Prop := ∃ rest, s.input = .reset :: rest

/-- The host's pending moves hold no reset. -/
def noReset (ms : List HostMove) : Bool := ms.all (fun mv => mv != .reset)

/-- The host's pending moves without its idle edges: the commands it issues, in order. -/
def issued (ms : List HostMove) : List HostMove := ms.filter (fun mv => mv != .idle)

end Sys2Proof.Machine
end

