-- ==== Sys2Proof/Certificates/Slice0/Obligations.lean ====
section
/-! DEFINITION. The statements of this model, for the provers. Each docstring names the rule of spec/ it formalises.
Where a statement names a next state as a record, every field the record does not name is unchanged: that is its frame. -/

open Sys2Proof Sys2Proof.Machine

/-! ### Command encoding (30_encoding.md) -/

/-- R53, R54, R59: a word decodes to an instruction exactly when it is that instruction's encoding and the instruction is well
formed, at every operand value: both round trips at once. -/
def Obligations.DecodeEncodeAgree : Prop :=
  ∀ (w : Cmd) (i : Instr), decode w = .command i ↔ i.wf = true ∧ w = encode i

/-- R59: the verdict of every 16-bit word, by the numbers of its fields; the count of the words that are commands; and a decode
error comes before the state checks: in IDLE and in DONE it is what the step reports. -/
def Obligations.DecodeVerdictOfEveryWord : Prop :=
  (∀ w : Cmd,
    let op := w.toNat / 4096
    let rsv := w.toNat / 256 % 16
    let imm := w.toNat % 256
    let illegal := 7 ≤ op ∨ rsv ≠ 0 ∨ ((op = 0 ∨ op = 1 ∨ op = 3) ∧ imm ≠ 0)
    let range := (op = 4 ∧ 3 < imm) ∨ (op = 5 ∧ 15 < imm) ∨ (op = 6 ∧ 31 < imm)
    (decode w = .error .illegalCommand ↔ illegal) ∧
    (decode w = .error .operandRange ↔ ¬ illegal ∧ range) ∧
    (¬ illegal → ¬ range →
      (op = 0 → decode w = .command .nop) ∧
      (op = 1 → decode w = .command .init) ∧
      (op = 2 → decode w = .command (.absorb (BitVec.ofNat 8 imm))) ∧
      (op = 3 → decode w = .command .final) ∧
      (op = 4 → decode w = .command (.rdword (BitVec.ofNat 8 imm))) ∧
      (op = 5 → decode w = .command (.rdbyte (BitVec.ofNat 8 imm))) ∧
      (op = 6 → decode w = .command (.rdhex (BitVec.ofNat 8 imm))))) ∧
  (∃ l : List Cmd, l.Nodup ∧ l.length = 311 ∧ ∀ w : Cmd, w ∈ l ↔ ∃ i, decode w = .command i) ∧
  (∀ (s : State) (w : Cmd) (rest : List HostMove) (e : DecodeError), s.fsm = .idle ∨ s.fsm = .done →
    s.input = .command w :: rest → decode w = .error e →
    step s = .next { s with input := rest, ecode := (causeOf e).code, fsm := .fault })

/-- R54 and spec/opcode_table.json: a word lies in a row of the table exactly when it decodes to a command of the row's mnemonic,
no two rows share a word, and every mnemonic has its row. -/
def Obligations.DecodeAgreesWithOpcodeTable : Prop :=
  (∀ w : Cmd, ∀ row ∈ opcodeTable, (row.matches w = true ↔ ∃ i, decode w = .command i ∧ i.mnemonic = row.mnemonic)) ∧
  (∀ w : Cmd, ∀ row ∈ opcodeTable, ∀ row' ∈ opcodeTable, row.matches w = true → row'.matches w = true → row = row') ∧
  (∀ i : Instr, ∃ row ∈ opcodeTable, row.mnemonic = i.mnemonic)

/-- R54: one word of each command, written out from the encoding patterns, decodes to it (a sanity statement). -/
def Obligations.DecodeOfWrittenOutWords : Prop :=
  decode 0b0000000000000000#16 = .command .nop ∧
  decode 0b0001000000000000#16 = .command .init ∧
  decode 0b0010000001100001#16 = .command (.absorb 0x61#8) ∧
  decode 0b0011000000000000#16 = .command .final ∧
  decode 0b0100000000000011#16 = .command (.rdword 3#8) ∧
  decode 0b0101000000001111#16 = .command (.rdbyte 15#8) ∧
  decode 0b0110000000011111#16 = .command (.rdhex 31#8)

/-- R60, with lines as data (assumption log 5): the command word of every form and operand, in numbers, and no word for an operand
out of its range. A line stands for a command exactly when it has a word, and the word decodes to that command. -/
def Obligations.AssembledLinesDecode : Prop :=
  assemble .nop = some 0x0000#16 ∧ assemble .init = some 0x1000#16 ∧ assemble .final = some 0x3000#16 ∧
  (∀ n : Nat, assemble (.absorb (.number n)) = if n ≤ 255 then some (BitVec.ofNat 16 (0x2000 + n)) else none) ∧
  (∀ b : Byte, assemble (.absorb (.quoted b)) = some (BitVec.ofNat 16 (0x2000 + b.toNat))) ∧
  (∀ n : Nat, assemble (.rdword (.number n)) = if n ≤ 3 then some (BitVec.ofNat 16 (0x4000 + n)) else none) ∧
  assemble (.rdword .nameA) = some 0x4000#16 ∧ assemble (.rdword .nameB) = some 0x4001#16 ∧
  assemble (.rdword .nameC) = some 0x4002#16 ∧ assemble (.rdword .nameD) = some 0x4003#16 ∧
  (∀ n : Nat, assemble (.rdbyte n) = if n ≤ 15 then some (BitVec.ofNat 16 (0x5000 + n)) else none) ∧
  (∀ n : Nat, assemble (.rdhex n) = if n ≤ 31 then some (BitVec.ofNat 16 (0x6000 + n)) else none) ∧
  (∀ line : AsmLine, line.instr? = none ↔ assemble line = none) ∧
  (∀ (line : AsmLine) (i : Instr), line.instr? = some i ↔ ∃ w, assemble line = some w ∧ decode w = .command i)

/-! ### Steps and acceptance (R51, R52, R131) -/

/-- R52, R59: an engine that is not BUSY accepts the word the host presents, takes it from the host's moves, and runs the
instruction it decodes to; `withFetchWord` presents a word so. -/
def Obligations.StepRunsDecodedCommand : Prop :=
  (∀ (s : State) (w : Cmd) (rest : List HostMove) (i : Instr), s.isBusy = false → s.input = .command w :: rest →
    decode w = .command i → step s = exec i { s with input := rest }) ∧
  (∀ (s : State) (w : Nat) (i : Instr), s.isBusy = false → decodeTableWord 16 w = some i →
    step (s.withFetchWord 16 w) = exec i s)

/-- R131, R95: while BUSY no command is accepted; a command the host presents is held, not dropped, and each step without a reset
is one round. -/
def Obligations.BusyHoldsCommandsAndTakesRounds : Prop :=
  ∀ (s : State) (b : Block), s.fsm = .busy b →
    s.cmdReady = false ∧
    (∀ w rest, s.input = .command w :: rest → step s = .next (roundStep b s)) ∧
    (∀ rest, s.input = .idle :: rest → step s = .next (roundStep b { s with input := rest })) ∧
    (s.input = [] → step s = .next (roundStep b s)) ∧
    (roundStep b s).input = s.input

/-- R52, R126, R138: without a command and without a reset an engine that is not BUSY changes nothing, and a run that is over stays
over with its outcome until a reset. -/
def Obligations.QuietEngineHoldsItsState : Prop :=
  (∀ s : State, s.isBusy = false → s.input = [] → step s = .next s) ∧
  (∀ (s : State) (rest : List HostMove), s.isBusy = false → s.input = .idle :: rest →
    step s = .next { s with input := rest }) ∧
  (∀ (s : State) (e : RunEnd), s.runEnd = some e → ¬ s.AtReset →
    step s = .next { s with input := s.input.tail } ∧ ({ s with input := s.input.tail } : State).runEnd = some e)

/-- R138: a run is over exactly when no command is left to issue and BUSY = 0, with the digest in DONE, without one in IDLE, and
failed in FAULT. -/
def Obligations.RunEndsByState : Prop :=
  ∀ s : State,
    ((∃ e, s.runEnd = some e) ↔ (∀ w, .command w ∉ s.input) ∧ s.isBusy = false) ∧
    (s.runEnd = some .digest ↔ (∀ w, .command w ∉ s.input) ∧ s.fsm = .done) ∧
    (s.runEnd = some .noDigest ↔ (∀ w, .command w ∉ s.input) ∧ s.fsm = .idle) ∧
    (s.runEnd = some .failed ↔ (∀ w, .command w ∉ s.input) ∧ s.fsm = .fault)

/-- R115, R109: no step stops. Whatever the state and the host's moves, the machine has a next state: the fatal conditions of the
document (R115, code 5) are unreachable and no command ends a run. -/
def Obligations.StepNeverStops : Prop := ∀ s : State, ∃ t, step s = .next t

/-- R140: while BUSY = 1 the round step is the only step besides reset, and BUSY = 0 is reached within 128 steps whatever the host
does. -/
def Obligations.BusyEndsWithin128Steps : Prop :=
  (∀ (s : State) (b : Block), s.fsm = .busy b → ¬ s.AtReset →
    ∃ rest, step s = .next (roundStep b { s with input := rest })) ∧
  (∀ s : State, ∃ k t, k ≤ 128 ∧ run k s = .next t ∧ t.isBusy = false)

/-! ### Reset (R127-R129, R30) -/

/-- R30: the state after reset, W and buf apart, whose values R30 leaves unspecified. -/
def Obligations.ResetStateValues : Prop :=
  State.reset.H = ⟨0x67452301#32, 0xEFCDAB89#32, 0x98BADCFE#32, 0x10325476#32⟩ ∧
  State.reset.L = 0#64 ∧ State.reset.fill = 0#6 ∧ State.reset.rnd = 0#6 ∧ State.reset.fsm.code = 0#3 ∧
  State.reset.ecode = 0#4 ∧ State.reset.rdata = 0#32 ∧ State.reset.status = 0#32 ∧ State.reset.cmdReady = true

/-- R127, R128: an edge with `rst` = 1 in any state leaves every register at its reset value and takes no command and no round; the
command pins do not matter to it. Nothing is said of W and buf, which are not reset. -/
def Obligations.ResetStepFromAnyState : Prop :=
  (∀ (s : State) (rest : List HostMove), s.input = .reset :: rest → ∃ t, step s = .next t ∧
    t.H = ⟨0x67452301#32, 0xEFCDAB89#32, 0x98BADCFE#32, 0x10325476#32⟩ ∧
    t.L = 0#64 ∧ t.fill = 0#6 ∧ t.rnd = 0#6 ∧ t.fsm = .idle ∧ t.ecode = 0#4 ∧ t.rdata = 0#32 ∧
    t.input = rest ∧ t.status = 0#32 ∧ t.cmdReady = true) ∧
  (∀ (p q : Pins) (s : State), p.rst = true → q.rst = true → edge p s = edge q s)

/-! ### Errors and the FAULT state (60_exceptions.md) -/

/-- R111: a reserved opcode, a nonzero `rsv`, or a nonzero `imm8` on NOP, INIT or FINAL raises ILLEGAL_COMMAND (1) in IDLE and in
DONE. By R117 and R119 nothing but ECODE and `state` changes. -/
def Obligations.IllegalCommandFaults : Prop :=
  ∀ (s : State) (w : Cmd) (rest : List HostMove), s.fsm = .idle ∨ s.fsm = .done → s.input = .command w :: rest →
    7 ≤ w.toNat / 4096 ∨ w.toNat / 256 % 16 ≠ 0 ∨
      ((w.toNat / 4096 = 0 ∨ w.toNat / 4096 = 1 ∨ w.toNat / 4096 = 3) ∧ w.toNat % 256 ≠ 0) →
    step s = .next { s with input := rest, ecode := 1#4, fsm := .fault }

/-- R112: a read command whose index lies above its range raises OPERAND_RANGE (2) in IDLE and in DONE, when ILLEGAL_COMMAND does
not apply; the meanings check it as the decoder does. -/
def Obligations.OperandRangeFaults : Prop :=
  (∀ (s : State) (w : Cmd) (rest : List HostMove), s.fsm = .idle ∨ s.fsm = .done → s.input = .command w :: rest →
    w.toNat / 256 % 16 = 0 →
    (w.toNat / 4096 = 4 ∧ 3 < w.toNat % 256) ∨ (w.toNat / 4096 = 5 ∧ 15 < w.toNat % 256) ∨
      (w.toNat / 4096 = 6 ∧ 31 < w.toNat % 256) →
    step s = .next { s with input := rest, ecode := 2#4, fsm := .fault }) ∧
  (∀ (s : State) (x : Byte), s.fsm = .idle ∨ s.fsm = .done →
    (3 < x.toNat → exec (.rdword x) s = .next { s with ecode := 2#4, fsm := .fault }) ∧
    (15 < x.toNat → exec (.rdbyte x) s = .next { s with ecode := 2#4, fsm := .fault }) ∧
    (31 < x.toNat → exec (.rdhex x) s = .next { s with ecode := 2#4, fsm := .fault }))

/-- R113: ABSORB and FINAL in DONE raise SEQUENCE_AFTER_FINAL (3). -/
def Obligations.SequenceAfterFinalFaults : Prop :=
  ∀ s : State, s.fsm = .done →
    (∀ b, exec (.absorb b) s = .next { s with ecode := 3#4, fsm := .fault }) ∧
    exec .final s = .next { s with ecode := 3#4, fsm := .fault }

/-- R114: a read command in IDLE raises READ_BEFORE_DONE (4), when its index is in range. -/
def Obligations.ReadBeforeDoneFaults : Prop :=
  ∀ (s : State) (x : Byte), s.fsm = .idle →
    (x.toNat ≤ 3 → exec (.rdword x) s = .next { s with ecode := 4#4, fsm := .fault }) ∧
    (x.toNat ≤ 15 → exec (.rdbyte x) s = .next { s with ecode := 4#4, fsm := .fault }) ∧
    (x.toNat ≤ 31 → exec (.rdhex x) s = .next { s with ecode := 4#4, fsm := .fault })

/-- R117, R118, R119: whatever command raises it, fault entry writes ECODE and `state` and nothing else. -/
def Obligations.ErrorsArePrecise : Prop :=
  ∀ s t : State, step s = .next t → s.fsm ≠ .fault → t.fsm = .fault →
    1 ≤ t.ecode.toNat ∧ t.ecode.toNat ≤ 4 ∧
    ∃ w rest, s.input = .command w :: rest ∧ t = { s with input := rest, ecode := t.ecode, fsm := .fault }

/-- R120: in FAULT `cmd_ready` is 1, and every command word, decodable or not, is accepted and discarded with no effect. -/
def Obligations.FaultDiscardsEveryCommand : Prop :=
  ∀ s : State, s.fsm = .fault →
    s.cmdReady = true ∧
    (∀ w rest, s.input = .command w :: rest → step s = .next { s with input := rest }) ∧
    (∀ i, exec i s = .next s)

/-- R121: only reset leaves FAULT; FAULT is entered only from IDLE or DONE; and in FAULT ECODE stays what it was until a reset. -/
def Obligations.OnlyResetLeavesFault : Prop :=
  ∀ s t : State, step s = .next t →
    (s.fsm = .fault → t.fsm ≠ .fault → s.AtReset) ∧
    (s.fsm ≠ .fault → t.fsm = .fault → s.fsm = .idle ∨ s.fsm = .done) ∧
    (s.fsm = .fault → t.ecode ≠ s.ecode → s.AtReset)

/-! ### NOP and INIT (41_init.md) -/

/-- R80, R120: NOP completes in every state and leaves every register unchanged; on a BUSY state, where R131 holds it, that is
DEDUCED (assumption log 6). -/
def Obligations.NopChangesNothing : Prop := ∀ s : State, exec .nop s = .next s

/-- R77, R78, R81: INIT in IDLE or DONE loads the IV and clears L, fill and rnd; it does not write W, buf, RDATA or ECODE. -/
def Obligations.InitStartsMessage : Prop :=
  ∀ s : State, s.fsm = .idle ∨ s.fsm = .done →
    exec .init s = .next { s with
      H := ⟨0x67452301#32, 0xEFCDAB89#32, 0x98BADCFE#32, 0x10325476#32⟩
      L := 0#64
      fill := 0#6
      rnd := 0#6
      fsm := .idle }

/-! ### The block buffer (20_memory.md) -/

/-- R36, R38: a one-byte write stores its byte and leaves every other address alone, it keeps the canonical form, and two buffers in
canonical form that read the same are the same data. -/
def Obligations.BufferReadAfterWrite : Prop :=
  (∀ (m : Memory) (a c : Addr) (v : Byte), (m.write a v).read c = if c = a then v else m.read c) ∧
  (∀ (m : Memory) (a : Addr) (v : Byte), m.wf = true → (m.write a v).wf = true) ∧
  (∀ m m' : Memory, m.wf = true → m'.wf = true → (∀ a : Addr, m.read a = m'.read a) → m = m')

/-- R38, R41: byte 4k + j of the buffer is bits [8j+7 : 8j] of message word k. -/
def Obligations.MessageWordsAreLittleEndian : Prop :=
  ∀ (m : Memory) (a : Addr) (i : Nat), i < 8 →
    (messageWord m (BitVec.ofNat 4 (a.toNat / 4))).getLsbD (8 * (a.toNat % 4) + i) = (m.read a).getLsbD i

/-! ### ABSORB and FINAL (40_padding_length.md) -/

/-- R67, R68, R83: ABSORB in IDLE completes. It stores its byte at address fill, adds 8 to L modulo 2^64, and advances fill or, at
the 64th byte, starts the compression of the block. Every other register, and every other byte of the buffer, is unchanged. -/
def Obligations.AbsorbStoresByte : Prop :=
  ∀ (s : State) (b : Byte), s.fsm = .idle →
    (s.fill.toNat < 63 → ∃ t, exec (.absorb b) s = .next t ∧
      t = { s with buf := t.buf, L := t.L, fill := t.fill } ∧
      (∀ a, t.buf.read a = if a = s.fill then b else s.buf.read a) ∧
      t.L.toNat = (s.L.toNat + 8) % 2 ^ 64 ∧ t.fill.toNat = s.fill.toNat + 1) ∧
    (s.fill.toNat = 63 → ∃ t, exec (.absorb b) s = .next t ∧
      t = { s with buf := t.buf, L := t.L, fill := 0#6, W := s.H, rnd := 0#6, fsm := .busy .comp } ∧
      (∀ a, t.buf.read a = if a = s.fill then b else s.buf.read a) ∧
      t.L.toNat = (s.L.toNat + 8) % 2 ^ 64)

/-- R69, R70, R71: FINAL in IDLE completes. It keeps the message tail, puts 0x80 at address fill, zeros after it and, when fill is
at most 55, the little-endian length at 56..63, and starts the compression; every other register is unchanged. -/
def Obligations.FinalPadsBlock : Prop :=
  ∀ s : State, s.fsm = .idle → ∃ t, exec .final s = .next t ∧
    t = { s with
      buf := t.buf
      fill := 0#6
      W := s.H
      rnd := 0#6
      fsm := if s.fill.toNat ≤ 55 then .busy .compLast else .busy .compPad } ∧
    ∀ a : Addr, (t.buf.read a).toNat =
      if a.toNat < s.fill.toNat then (s.buf.read a).toNat
      else if a = s.fill then 0x80
      else if s.fill.toNat ≤ 55 ∧ 56 ≤ a.toNat then s.L.toNat / 2 ^ (8 * (a.toNat - 56)) % 256
      else 0

/-! ### Frames of the commands, in every state -/

/-- R31, R78, R80, R117: what NOP and INIT leave unchanged in every state: the working registers, every byte of the buffer, RDATA,
ECODE and the host's moves; NOP leaves everything. That `exec` on a BUSY state changes nothing is DEDUCED from R52 and R131
(assumption log 6). -/
def Obligations.NopInitFrame : Prop :=
  ∀ (i : Instr) (s t : State), i = .nop ∨ i = .init → exec i s = .next t →
    t.W = s.W ∧ (∀ a, t.buf.read a = s.buf.read a) ∧ t.buf = s.buf ∧ t.rdata = s.rdata ∧ t.ecode = s.ecode ∧
    t.input = s.input ∧ (i = .nop → t = s)

/-- R31, R67, R69, R117, R120: what ABSORB and FINAL leave unchanged in every state. H, RDATA and the host's moves; L for FINAL; W
and rnd unless a compression starts; ECODE unless a fault is entered; and every byte of the buffer but the one at fill (ABSORB) or
those from fill on (FINAL), and all of it outside IDLE. The clauses on a BUSY state, where `exec` changes nothing, are DEDUCED from
R52 and R131 (assumption log 6). -/
def Obligations.AbsorbFinalFrame : Prop :=
  ∀ (i : Instr) (s t : State), (∃ b, i = .absorb b) ∨ i = .final → exec i s = .next t →
    t.H = s.H ∧ t.rdata = s.rdata ∧ t.input = s.input ∧ (i = .final → t.L = s.L) ∧
    (t.isBusy = false ∨ s.isBusy = true → t.W = s.W ∧ t.rnd = s.rnd) ∧ (t.isErr = false → t.ecode = s.ecode) ∧
    (∀ a : Addr, a.toNat < s.fill.toNat → t.buf.read a = s.buf.read a) ∧
    (i ≠ .final → ∀ a : Addr, a ≠ s.fill → t.buf.read a = s.buf.read a) ∧
    (s.fsm ≠ .idle → t.buf = s.buf ∧ t.L = s.L ∧ t.fill = s.fill)

/-- R31, R44, R106, R117, R120: what the three read commands leave unchanged in every state: everything but RDATA in DONE, and
everything but ECODE and `state` when they raise an error. That `exec` on a BUSY state changes nothing is DEDUCED from R52 and R131
(assumption log 6). -/
def Obligations.ReadFrame : Prop :=
  ∀ (i : Instr) (s t : State), (∃ x, i = .rdword x ∨ i = .rdbyte x ∨ i = .rdhex x) → exec i s = .next t →
    (∀ a, t.buf.read a = s.buf.read a) ∧
    ((t = { s with rdata := t.rdata } ∧ (t.rdata ≠ s.rdata → s.fsm = .done)) ∨
      (t = { s with ecode := t.ecode, fsm := .fault } ∧ (t.ecode = 2#4 ∨ t.ecode = 4#4)))

/-! ### The read commands (43_output.md) -/

/-- R101: RDWORD w in DONE completes with RDATA = H[w], and changes nothing else. -/
def Obligations.RdwordReadsWord : Prop :=
  ∀ s : State, s.fsm = .done →
    exec (.rdword 0#8) s = .next { s with rdata := s.H.a } ∧
    exec (.rdword 1#8) s = .next { s with rdata := s.H.b } ∧
    exec (.rdword 2#8) s = .next { s with rdata := s.H.c } ∧
    exec (.rdword 3#8) s = .next { s with rdata := s.H.d }

/-- R100, R102: RDBYTE j in DONE completes with RDATA = digest byte j, zero-extended: byte j mod 4, least significant first, of
word j div 4 in the order A, B, C, D. Nothing else changes. -/
def Obligations.RdbyteReadsByte : Prop :=
  ∀ (s : State) (j : Byte), s.fsm = .done → j.toNat ≤ 15 → ∃ t, exec (.rdbyte j) s = .next t ∧
    t = { s with rdata := t.rdata } ∧
    t.rdata.toNat =
      (if j.toNat < 4 then s.H.a.toNat else if j.toNat < 8 then s.H.b.toNat else if j.toNat < 12 then s.H.c.toNat
        else s.H.d.toNat) / 2 ^ (8 * (j.toNat % 4)) % 256

/-- R103, R104: RDHEX p in DONE completes with RDATA = the lowercase ASCII hex digit of nibble p of the digest, the most
significant nibble of each byte first. Nothing else changes. -/
def Obligations.RdhexReadsCharacter : Prop :=
  ∀ (s : State) (p : Byte), s.fsm = .done → p.toNat ≤ 31 → ∃ t, exec (.rdhex p) s = .next t ∧
    t = { s with rdata := t.rdata } ∧
    let j := p.toNat / 2
    let byte := (if j < 4 then s.H.a.toNat else if j < 8 then s.H.b.toNat else if j < 12 then s.H.c.toNat
        else s.H.d.toNat) / 2 ^ (8 * (j % 4)) % 256
    let n := if p.toNat % 2 = 0 then byte / 16 else byte % 16
    t.rdata.toNat = if n ≤ 9 then 0x30 + n else 0x61 + (n - 10)

/-- R44, R106: a read command that completes in DONE gives the same RDATA again, also with any other such read between, and leaves
H and DONE as they are. -/
def Obligations.ReadsAreIdempotent : Prop :=
  ∀ (i j : Instr) (s : State), s.fsm = .done → i.wf = true → j.wf = true →
    (∃ x, i = .rdword x ∨ i = .rdbyte x ∨ i = .rdhex x) → (∃ x, j = .rdword x ∨ j = .rdbyte x ∨ j = .rdhex x) →
    ∃ t u, exec i s = .next t ∧ exec i t = .next t ∧ exec j t = .next u ∧ exec i u = .next t ∧
      t.H = s.H ∧ t.fsm = .done ∧ u.H = s.H ∧ u.fsm = .done

/-! ### The compression engine (42_compression.md) -/

/-- R88, R89, R90, R91: the auxiliary functions, bit by bit. -/
def Obligations.AuxiliaryFunctionsBitwise : Prop :=
  ∀ (x y z : Word) (i : Nat), i < 32 →
    (auxF x y z).getLsbD i = (if x.getLsbD i then y.getLsbD i else z.getLsbD i) ∧
    (auxG x y z).getLsbD i = (if z.getLsbD i then x.getLsbD i else y.getLsbD i) ∧
    (auxHf x y z).getLsbD i = (x.getLsbD i ^^ y.getLsbD i ^^ z.getLsbD i) ∧
    (auxI x y z).getLsbD i = (y.getLsbD i ^^ (x.getLsbD i || !z.getLsbD i))

/-- R94: "In general rotl32(v, s)[i] = v[(i - s) mod 32] for i = 0..31", for every s in 0..31. -/
def Obligations.RotatorMovesEveryBit : Prop :=
  ∀ (v : Word) (s : BitVec 5) (i : Nat), i < 32 → (rotl32 v s).getLsbD i = v.getLsbD ((i + 32 - s.toNat) % 32)

/-- R84, R85: ROM address r holds floor(2^32 * |sin(r + 1)|), the angle in radians. -/
def Obligations.RoundConstantsAreSines : Prop :=
  ∀ r : BitVec 6, ((tRom r).toNat : ℤ) = ⌊(2 : ℝ) ^ 32 * |Real.sin ((r.toNat : ℝ) + 1)|⌋

/-- R86, R87: the shift ROM holds the table's amounts, all in 4..23, and the message index takes the values of R87's formulas,
from r or from r mod 16 alike. -/
def Obligations.ShiftAndIndexSchedule : Prop :=
  ∀ r : BitVec 6,
    (sRom r).toNat = [7, 12, 17, 22, 5, 9, 14, 20, 4, 11, 16, 23, 6, 10, 15, 21].getD (4 * (r.toNat / 16) + r.toNat % 4) 0 ∧
    4 ≤ (sRom r).toNat ∧ (sRom r).toNat ≤ 23 ∧
    (∀ n : Nat, n = r.toNat ∨ n = r.toNat % 16 →
      (kIndex r).toNat =
        if r.toNat < 16 then n % 16 else if r.toNat < 32 then (5 * n + 1) % 16
        else if r.toNat < 48 then (3 * n + 5) % 16 else 7 * n % 16)

/-- R95, R92, R93, R38: every round, round 63 among them, in numbers. The new W is (old d, t, old b, old c), with t the rotated sum
plus old b; the message word is 4 bytes of the buffer, least significant first. The step of a round that is not the last of its
block writes that W and advances rnd by 1; every other register is unchanged. -/
def Obligations.RoundStepComputesRound : Prop :=
  (∀ (r : BitVec 6) (w : Words4) (m : Word),
    let t := roundWords r w m
    let f : Word := if r.toNat < 16 then (w.b &&& w.c) ||| (~~~w.b &&& w.d)
      else if r.toNat < 32 then (w.b &&& w.d) ||| (w.c &&& ~~~w.d)
      else if r.toNat < 48 then w.b ^^^ w.c ^^^ w.d
      else w.c ^^^ (w.b ||| ~~~w.d)
    let sum := (w.a.toNat + f.toNat + m.toNat + (tRom r).toNat) % 2 ^ 32
    let sh := (sRom r).toNat
    let rotated := sum * 2 ^ sh % 2 ^ 32 + sum / 2 ^ (32 - sh)
    t = ⟨w.d, t.b, w.b, w.c⟩ ∧ t.b.toNat = (rotated + w.b.toNat) % 2 ^ 32) ∧
  (∀ (buf : Memory) (k : BitVec 4),
    let byte := fun j => (buf.read (BitVec.ofNat 6 (4 * k.toNat + j))).toNat
    (messageWord buf k).toNat = byte 0 + 2 ^ 8 * byte 1 + 2 ^ 16 * byte 2 + 2 ^ 24 * byte 3) ∧
  (∀ (s : State) (b : Block), s.rnd.toNat < 63 → ∃ n : BitVec 6, n.toNat = s.rnd.toNat + 1 ∧
    roundStep b s = { s with W := roundWords s.rnd s.W (messageWord s.buf (kIndex s.rnd)), rnd := n })

/-- R96, R97, R72: the step of round 63 adds the working registers into H and ends the block: IDLE after COMP, DONE after COMP_LAST,
and after COMP_PAD the length block, whose bytes are 56 zeros and the length, in COMP_LAST. Every other register is unchanged. -/
def Obligations.LastRoundEndsBlock : Prop :=
  ∀ s : State, s.rnd = 63#6 →
    let w := roundWords 63#6 s.W (messageWord s.buf 9#4)
    let h : Words4 := ⟨s.H.a + w.a, s.H.b + w.b, s.H.c + w.c, s.H.d + w.d⟩
    roundStep .comp s = { s with W := w, H := h, rnd := 0#6, fsm := .idle } ∧
    roundStep .compLast s = { s with W := w, H := h, rnd := 0#6, fsm := .done } ∧
    (let t := roundStep .compPad s
     t = { s with W := h, H := h, rnd := 0#6, fsm := .busy .compLast, buf := t.buf } ∧
      ∀ a : Addr, (t.buf.read a).toNat =
        if a.toNat < 56 then 0 else s.L.toNat / 2 ^ (8 * (a.toNat - 56)) % 256)

/-- R82, R99, R131: from StartCompress, 64 steps without a reset bring H to `Compress(H, M)` of the block in the buffer, whatever
commands the host presents meanwhile, and all of those are still before it. -/
def Obligations.SixtyFourStepsCompressBlock : Prop :=
  ∀ (s : State) (b : Block), s.fsm = .busy b → s.rnd = 0#6 → s.W = s.H → noReset s.input = true →
    ∃ t, run 64 s = .next t ∧ t.H = compress s.H (messageWord s.buf) ∧ t.rnd = 0#6 ∧
      t.L = s.L ∧ t.fill = s.fill ∧ t.ecode = s.ecode ∧ t.rdata = s.rdata ∧ issued t.input = issued s.input ∧
      (b = .comp → t.fsm = .idle) ∧ (b = .compLast → t.fsm = .done) ∧
      (b = .compPad → t.fsm = .busy .compLast ∧ t.W = t.H)

/-! ### STATUS and RDATA (10_state.md) -/

/-- R22, R23, R24, R25, R26, R19: every field of STATUS at its place, the reserved bits 0; BUSY, DONE and ERR by the FSM state's
encoding; `cmd_ready`; and the encoding of each of the six FSM states. -/
def Obligations.StatusWordLayout : Prop :=
  ∀ s : State,
    s.status.toNat = s.isBusy.toNat + 2 * s.isDone.toNat + 4 * s.isErr.toNat + 2 ^ 4 * s.ecode.toNat + 2 ^ 8 * s.fill.toNat
      + 2 ^ 16 * s.fsm.code.toNat + 2 ^ 24 * s.rnd.toNat ∧
    (s.isBusy = true ↔ s.fsm.code = 1#3 ∨ s.fsm.code = 2#3 ∨ s.fsm.code = 3#3) ∧
    (s.isDone = true ↔ s.fsm.code = 4#3) ∧ (s.isErr = true ↔ s.fsm.code = 5#3) ∧
    (s.cmdReady = true ↔ s.isBusy = false) ∧
    (s.fsm = .idle ↔ s.fsm.code = 0#3) ∧ (s.fsm = .busy .comp ↔ s.fsm.code = 1#3) ∧
    (s.fsm = .busy .compPad ↔ s.fsm.code = 2#3) ∧ (s.fsm = .busy .compLast ↔ s.fsm.code = 3#3) ∧
    (s.fsm = .done ↔ s.fsm.code = 4#3) ∧ (s.fsm = .fault ↔ s.fsm.code = 5#3)

/-- R107: RDATA changes only by a reset, which clears it, or by a read command that completes in DONE. -/
def Obligations.RdataHoldsLastRead : Prop :=
  ∀ s t : State, step s = .next t → t.rdata ≠ s.rdata →
    (s.AtReset ∧ t.rdata = 0#32) ∨
    (s.fsm = .done ∧ ∃ i x, s.Accepts i ∧ (i = .rdword x ∨ i = .rdbyte x ∨ i = .rdhex x))

/-- R31: the access table. Each of its nine columns (H, W, buf, L, fill, rnd, state, ECODE, RDATA) is written only by the operations
the table gives it, and W and buf by a reset as well. That exception is the model's choice (assumption log 2): the table's reset row
has "-" there, and the model draws free values for what R30 and R128 leave unspecified. -/
def Obligations.OnlyTheAccessTableWrites : Prop :=
  ∀ s t : State, step s = .next t →
    (t.H ≠ s.H → s.AtReset ∨ s.Accepts .init ∨ (s.isBusy = true ∧ s.rnd = 63#6)) ∧
    (t.W ≠ s.W → s.AtReset ∨ s.isBusy = true ∨ (∃ b, s.Accepts (.absorb b) ∧ s.fill = 63#6) ∨ s.Accepts .final) ∧
    (∀ a : Addr, t.buf.read a ≠ s.buf.read a → s.AtReset ∨ (∃ b, s.Accepts (.absorb b) ∧ a = s.fill) ∨
      (s.Accepts .final ∧ s.fill.toNat ≤ a.toNat) ∨ (s.fsm = .busy .compPad ∧ s.rnd = 63#6)) ∧
    (t.L ≠ s.L → s.AtReset ∨ s.Accepts .init ∨ ∃ b, s.Accepts (.absorb b)) ∧
    (t.fill ≠ s.fill → s.AtReset ∨ s.Accepts .init ∨ s.Accepts .final ∨ ∃ b, s.Accepts (.absorb b)) ∧
    (t.rnd ≠ s.rnd → s.AtReset ∨ s.isBusy = true ∨ s.Accepts .init ∨ s.Accepts .final ∨ ∃ b, s.Accepts (.absorb b)) ∧
    (t.fsm ≠ s.fsm → s.AtReset ∨ s.Accepts .init ∨ s.Accepts .final ∨ (∃ b, s.Accepts (.absorb b)) ∨
      ((s.fsm = .idle ∨ s.fsm = .done) ∧ t.fsm = .fault) ∨ (s.isBusy = true ∧ s.rnd = 63#6)) ∧
    (t.ecode ≠ s.ecode → s.AtReset ∨ ((s.fsm = .idle ∨ s.fsm = .done) ∧ t.fsm = .fault)) ∧
    (t.rdata ≠ s.rdata → s.AtReset ∨ (s.fsm = .done ∧ ∃ x, s.Accepts (.rdword x) ∨ s.Accepts (.rdbyte x) ∨ s.Accepts (.rdhex x)))

/-- R24, R106, R119: DONE and its digest are left only by a reset, by INIT, or by a command that raises an error, which leaves H
(R117, R119). -/
def Obligations.DigestStaysUntilInitOrReset : Prop :=
  ∀ s t : State, step s = .next t → s.fsm = .done → ¬ s.AtReset → ¬ s.Accepts .init →
    t.H = s.H ∧ (t.fsm = .done ∨ t.fsm = .fault)

/-! ### Invariants and noninterference (R29, R31, R33, R99) -/

/-- R29: the invariant holds at reset. -/
def Obligations.InvariantHoldsAtReset : Prop := State.reset.Inv

/-- R29: every step keeps the invariant, from every state that meets it. -/
def Obligations.EveryStepKeepsInvariant : Prop := ∀ s t : State, s.Inv → step s = .next t → t.Inv

/-- R31, R99: no unspecified value reaches a result. Two engines that differ only in W outside a compression, in the buffer bytes
not yet written for their block, and in the free values to come, still agree after a step, and so at every later step. -/
def Obligations.UnspecifiedValuesNeverMatter : Prop :=
  ∀ s s' t : State, s.Agree s' → step s = .next t → ∃ t', step s' = .next t' ∧ t.Agree t'

/-- R33: outside DONE, what the host sees (STATUS, RDATA, `cmd_ready`) never depends on H, W, buf or L: not now, and not after the
next step. -/
def Obligations.ChainingValueIsNotObservable : Prop :=
  (∀ s s' : State, s.SameView s' → s.ports = s'.ports) ∧
  (∀ s s' t : State, s.SameView s' → s.fsm ≠ .done → step s = .next t →
    ∃ t', step s' = .next t' ∧ t.SameView t')

/-! ### The padded message and the digest (R12, R63-R66, R76, R137) -/

/-- R63 with the bit order of R37: the padded message is the message, one set bit, the fewest zero bits that bring the length to
448 modulo 512, and the 64-bit length modulo 2^64, least significant byte first. -/
def Obligations.PaddedMessageBits : Prop :=
  ∀ m : List Byte, ∃ z, z < 512 ∧
    bitsOf (paddedMessage m) = bitsOf m ++ [true] ++ List.replicate z false ++ bitsOf (le64 (lengthField m)) ∧
    ((bitsOf m).length + 1 + z) % 512 = 448 ∧
    (bitsOf (paddedMessage m)).length % 512 = 0 ∧ 0 < (bitsOf (paddedMessage m)).length ∧
    (le64 (lengthField m)).length = 8 ∧
    (∀ j < 8, ((le64 (lengthField m)).getD j 0#8).toNat = 8 * m.length % 2 ^ 64 / 2 ^ (8 * j) % 256)

/-- R66: a message of n bytes gives floor((n + 8) / 64) + 1 blocks, each of 64 bytes, and together they are the padded message. -/
def Obligations.PaddedBlockCount : Prop :=
  ∀ m : List Byte,
    (blocks (paddedMessage m)).length = (m.length + 8) / 64 + 1 ∧
    (∀ block ∈ blocks (paddedMessage m), block.length = 64) ∧
    (blocks (paddedMessage m)).flatten = paddedMessage m

/-- R78, R128: nothing is absorbed at reset, after a reset step, and after INIT. -/
def Obligations.MessageStartsEmpty : Prop :=
  State.reset.Absorbed [] ∧
  (∀ s t : State, s.AtReset → step s = .next t → t.Absorbed []) ∧
  (∀ s : State, s.fsm = .idle ∨ s.fsm = .done → ∃ t, exec .init s = .next t ∧ t.Absorbed [])

/-- R16, R36, R67, R82: ABSORB b takes an engine that has absorbed m to one that has absorbed m followed by b, at once or, at the
64th byte of a block, after the 64 steps of its compression. -/
def Obligations.AbsorbExtendsMessage : Prop :=
  ∀ (s : State) (m : List Byte) (b : Byte), s.Absorbed m → noReset s.input = true →
    ∃ t, exec (.absorb b) s = .next t ∧ t.ecode = s.ecode ∧ t.input = s.input ∧
      (m.length % 64 < 63 → t.Absorbed (m ++ [b])) ∧
      (m.length % 64 = 63 → ∃ u, run 64 t = .next u ∧ u.Absorbed (m ++ [b]) ∧ u.ecode = s.ecode ∧
        issued u.input = issued s.input)

/-- R69-R72, R76, R137: FINAL takes an engine that has absorbed m to DONE with the digest state of m in H, after 64 steps when fill
is at most 55 and after 128 otherwise. -/
def Obligations.FinalYieldsDigestState : Prop :=
  ∀ (s : State) (m : List Byte), s.Absorbed m → noReset s.input = true →
    ∃ t u, exec .final s = .next t ∧ run (if m.length % 64 ≤ 55 then 64 else 128) t = .next u ∧
      u.fsm = .done ∧ u.H = digestState m ∧ u.rnd = 0#6 ∧ u.ecode = s.ecode ∧ issued u.input = issued s.input

/-- R76, R79: stream equivalence. From an engine that has absorbed nothing, or after INIT in any state of IDLE or DONE, ABSORB of
each byte of m and then FINAL end in DONE with the digest state of m in H and no error, whatever idle edges the host leaves
between its commands; the commands after them wait. -/
def Obligations.StreamEquivalence : Prop :=
  ∀ (s : State) (m : List Byte) (rest : List HostMove), noReset rest = true →
    (s.Absorbed [] ∧ issued s.input = present (m.map .absorb ++ [.final]) ++ issued rest) ∨
      ((s.fsm = .idle ∨ s.fsm = .done) ∧
        issued s.input = present (.init :: (m.map .absorb ++ [.final])) ++ issued rest) →
    ∃ k t, run k s = .next t ∧ t.fsm = .done ∧ t.H = digestState m ∧ t.ecode = s.ecode ∧ issued t.input = issued rest

/-- R137: without idle edges, a message of n bytes takes n + 1 accepting steps and 64 * (floor((n+8)/64) + 1) round steps to DONE,
and no fewer: at no earlier step is the engine in DONE, and a further command after FINAL still waits. -/
def Obligations.RoundStepsOfMessage : Prop :=
  ∀ (s : State) (m : List Byte) (rest : List HostMove), s.Absorbed [] →
    s.input = present (m.map .absorb ++ [.final]) ++ rest → rest = [] ∨ (∃ w more, rest = .command w :: more) →
    noReset rest = true →
    let n := m.length + 1 + 64 * ((m.length + 8) / 64 + 1)
    (∃ t, run n s = .next t ∧ t.fsm = .done ∧ t.H = digestState m ∧ t.input = rest) ∧
    (∀ k < n, ∃ u, run k s = .next u ∧ u.fsm ≠ .done)

/-- R12, R105: from reset, `INIT; ABSORB m0; ...; FINAL; RDHEX p` leaves in RDATA character p of the document's digest of m. -/
def Obligations.HashReadsDocumentDigest : Prop :=
  ∀ (m : List Byte) (p : Nat), p < 32 →
    ∃ k t, run k { State.reset with input := present ((Pseudo.hash m).expand ++ [.rdhex (BitVec.ofNat 8 p)]) } = .next t ∧
      t.fsm = .done ∧ issued t.input = [] ∧ t.rdata = ((hexDigest m).getD p 0#8).setWidth 32

/-! ### Several engines (R50, R125) -/

/-- R50: `stepEngine i` is a step of engine i, and it neither reads nor writes another's state: the others are unchanged, and two
engines' steps give the same platform in either order (platform: assumption log 8). -/
def Obligations.EnginesAreIndependent : Prop :=
  (∀ (p : Platform) (i : Nat) (s t : State), p.engines[i]? = some s → step s = .next t →
    p.stepEngine i = .next ⟨p.engines.set i t⟩) ∧
  (∀ (p : Platform) (i : Nat), p.engines[i]? = none → p.stepEngine i = .next p) ∧
  (∀ (p q : Platform) (i j : Nat), p.stepEngine i = .next q → j ≠ i → q.engines[j]? = p.engines[j]?) ∧
  (∀ (p q r : Platform) (i j : Nat), i ≠ j → p.stepEngine i = .next q → q.stepEngine j = .next r →
    ∃ q', p.stepEngine j = .next q' ∧ q'.stepEngine i = .next r) ∧
  (∀ (p : Platform) (i : Nat), ∃ q, p.stepEngine i = .next q)

/-- R6, R125: a platform after reset has `N_ENGINES` engines, at least 1 and 1 by default, each in the state after its own reset; no
step changes their number (`unit` is the model's own field, assumption log 2). -/
def Obligations.PlatformKeepsItsEngines : Prop :=
  (∀ n : Config.NEngines, 1 ≤ n.val ∧ (Platform.reset n).engines.length = n.val ∧ (Platform.reset n).wf = true) ∧
  Platform.reset.engines.length = 1 ∧
  (∀ (n : Config.NEngines) (i : Nat), i < n.val → (Platform.reset n).engines[i]? = some { State.reset with unit := i }) ∧
  (∀ (p q : Platform) (i : Nat), p.stepEngine i = .next q → q.engines.length = p.engines.length ∧ (p.wf = true → q.wf = true))
end

