-- ==== Sys2Proof/Laws/Memory.lean ====
section
/-! SUPPORT. The block buffer: read after write, ranges of writes, little-endian words, and the canonical form, which every
operation keeps. -/

namespace Sys2Proof.Machine

/-! ### One byte -/

theorem Memory.lookup_filter_ne (m : Memory) (a c : Nat) :
    Memory.lookup c (m.filter (fun x => x.1 != a)) = if c = a then Memory.unlisted else Memory.lookup c m := by
  induction m with
  | nil => simp [Memory.lookup]
  | cons p m ih =>
    obtain ⟨b, x⟩ := p
    by_cases hb : b = a
    · subst hb
      rw [List.filter_cons_of_neg (by simp), ih]
      by_cases hc : c = b <;> simp [Memory.lookup, hc]
    · rw [List.filter_cons_of_pos (by simpa using hb)]
      by_cases hc : c = b
      · subst hc; simp [Memory.lookup, hb]
      · simp [Memory.lookup, hc, ih]

theorem Memory.lookup_place (m : Memory) (a c : Nat) (v : Byte) :
    Memory.lookup c (Memory.place a v m) = if c = a then v else Memory.lookup c m := by
  induction m with
  | nil => simp [Memory.place, Memory.lookup]
  | cons p m ih =>
    obtain ⟨b, x⟩ := p
    unfold Memory.place
    split
    · simp [Memory.lookup]
    · split
      · next h => subst h; by_cases hc : c = a <;> simp [Memory.lookup, hc]
      · next h1 h2 =>
        by_cases hc : c = b
        · subst hc; simp [Memory.lookup, Ne.symm h2]
        · simp [Memory.lookup, hc, ih]

/-- A write stores its byte and leaves every other address alone. It needs no canonical form. -/
theorem Memory.read_write (m : Memory) (a c : Addr) (v : Byte) :
    (m.write a v).read c = if c = a then v else m.read c := by
  have key : (c.toNat = a.toNat) = (c = a) := by rw [BitVec.toNat_inj]
  unfold Memory.write Memory.read
  split
  · next h => simp only [Memory.lookup_filter_ne, key, h]
  · simp only [Memory.lookup_place, key]

@[simp] theorem Memory.read_write_same (m : Memory) (a : Addr) (v : Byte) : (m.write a v).read a = v := by
  simp [Memory.read_write]

theorem Memory.read_write_other (m : Memory) {a c : Addr} (v : Byte) (h : c ≠ a) :
    (m.write a v).read c = m.read c := by
  simp [Memory.read_write, h]

@[simp] theorem Memory.read_nil (a : Addr) : Memory.read [] a = Memory.unlisted := rfl

/-! ### Ranges -/

/-- What a range of writes inside the buffer leaves at each address. -/
theorem Memory.read_writeRange (f : Nat → Byte) (n : Nat) : ∀ (m : Memory) (start : Nat) (c : Addr), start + n ≤ 64 →
    (m.writeRange f start n).read c
      = if start ≤ c.toNat ∧ c.toNat < start + n then f c.toNat else m.read c := by
  induction n with
  | zero =>
    intro m start c _
    have h : ¬ (start ≤ c.toNat ∧ c.toNat < start + 0) := by omega
    simp only [Memory.writeRange, if_neg h]
  | succ n ih =>
    intro m start c hs
    rw [Memory.writeRange, ih _ _ _ (by omega), Memory.read_write]
    have key : (c = BitVec.ofNat 6 start) ↔ c.toNat = start := by
      rw [← BitVec.toNat_inj, BitVec.toNat_ofNat, Nat.mod_eq_of_lt (by omega)]
    by_cases h1 : c.toNat = start
    · have h2 : ¬ (start + 1 ≤ c.toNat ∧ c.toNat < start + 1 + n) := by omega
      have h3 : start ≤ c.toNat ∧ c.toNat < start + (n + 1) := by omega
      rw [if_neg h2, if_pos (key.2 h1), if_pos h3, h1]
    · rw [if_neg (fun h => h1 (key.1 h))]
      by_cases h2 : start + 1 ≤ c.toNat ∧ c.toNat < start + 1 + n
      · rw [if_pos h2, if_pos (by omega)]
      · rw [if_neg h2, if_neg (by omega)]

theorem Memory.read_writeLE {k : Nat} (m : Memory) (addr : Addr) (n : Nat) (v : BitVec k) (c : Addr)
    (h : addr.toNat + n ≤ 64) :
    (m.writeLE addr n v).read c
      = if addr.toNat ≤ c.toNat ∧ c.toNat < addr.toNat + n then byteAt v (c.toNat - addr.toNat) else m.read c := by
  rw [Memory.writeLE, Memory.read_writeRange _ _ _ _ _ h]

/-! ### The canonical form -/

theorem Memory.wfFrom_mono {m : Memory} {lo lo' : Nat} (h : lo' ≤ lo) (hw : Memory.wfFrom lo m = true) :
    Memory.wfFrom lo' m = true := by
  cases m with
  | nil => rfl
  | cons p m =>
    obtain ⟨b, x⟩ := p
    simp only [Memory.wfFrom, Bool.and_eq_true, decide_eq_true_eq] at hw ⊢
    exact ⟨⟨⟨by omega, hw.1.1.2⟩, hw.1.2⟩, hw.2⟩

theorem Memory.wfFrom_filter (p : Host.Cell → Bool) : ∀ (m : Memory) (lo : Nat), Memory.wfFrom lo m = true →
    Memory.wfFrom lo (m.filter p) = true := by
  intro m
  induction m with
  | nil => intro lo _; rfl
  | cons c m ih =>
    intro lo h
    obtain ⟨b, x⟩ := c
    simp only [Memory.wfFrom, Bool.and_eq_true, decide_eq_true_eq] at h
    by_cases hp : p (b, x) = true
    · rw [List.filter_cons_of_pos hp]
      simp only [Memory.wfFrom, Bool.and_eq_true, decide_eq_true_eq]
      exact ⟨h.1, ih _ h.2⟩
    · rw [List.filter_cons_of_neg hp]
      exact Memory.wfFrom_mono (by omega) (ih _ h.2)

theorem Memory.wfFrom_place (a : Nat) (v : Byte) (ha : a < 64) (hv : v ≠ Memory.unlisted) :
    ∀ (m : Memory) (lo : Nat), lo ≤ a → Memory.wfFrom lo m = true → Memory.wfFrom lo (Memory.place a v m) = true := by
  intro m
  induction m with
  | nil => intro lo hlo _; simp [Memory.place, Memory.wfFrom, hlo, ha, hv]
  | cons c m ih =>
    intro lo hlo h
    obtain ⟨b, x⟩ := c
    simp only [Memory.wfFrom, Bool.and_eq_true, decide_eq_true_eq] at h
    unfold Memory.place
    split
    · simp only [Memory.wfFrom, Bool.and_eq_true, decide_eq_true_eq]
      exact ⟨⟨⟨hlo, ha⟩, hv⟩, ⟨⟨by omega, h.1.1.2⟩, h.1.2⟩, h.2⟩
    · split
      · next hab =>
        simp only [Memory.wfFrom, Bool.and_eq_true, decide_eq_true_eq]
        exact ⟨⟨⟨hlo, ha⟩, hv⟩, hab ▸ h.2⟩
      · simp only [Memory.wfFrom, Bool.and_eq_true, decide_eq_true_eq]
        exact ⟨h.1, ih _ (by omega) h.2⟩

theorem Memory.wf_nil : Memory.wf [] = true := rfl

theorem Memory.wf_write {m : Memory} (a : Addr) (v : Byte) (h : m.wf = true) : (m.write a v).wf = true := by
  unfold Memory.write
  split
  · exact Memory.wfFrom_filter _ _ _ h
  · next hv => exact Memory.wfFrom_place _ _ (by have := a.isLt; omega) hv _ _ (Nat.zero_le _) h

theorem Memory.wf_writeRange (f : Nat → Byte) (n : Nat) : ∀ (m : Memory) (start : Nat), m.wf = true →
    (m.writeRange f start n).wf = true := by
  induction n with
  | zero => intro m start h; exact h
  | succ n ih => intro m start h; exact ih _ _ (Memory.wf_write _ _ h)

theorem Memory.wf_writeLE {k : Nat} {m : Memory} (addr : Addr) (n : Nat) (v : BitVec k) (h : m.wf = true) :
    (m.writeLE addr n v).wf = true := Memory.wf_writeRange _ _ _ _ h

theorem Memory.lookup_eq_unlisted_of_lt {m : Memory} {lo a : Nat} (h : Memory.wfFrom lo m = true) (ha : a < lo) :
    Memory.lookup a m = Memory.unlisted := by
  induction m generalizing lo with
  | nil => rfl
  | cons p m ih =>
    obtain ⟨b, x⟩ := p
    simp only [Memory.wfFrom, Bool.and_eq_true, decide_eq_true_eq] at h
    have hne : a ≠ b := by omega
    simp only [Memory.lookup, if_neg hne]
    exact ih h.2 (by omega)

theorem Memory.eq_of_lookup_eq : ∀ (m m' : Memory) (lo : Nat), Memory.wfFrom lo m = true → Memory.wfFrom lo m' = true →
    (∀ c, Memory.lookup c m = Memory.lookup c m') → m = m' := by
  intro m
  induction m with
  | nil =>
    intro m' lo _ h' hl
    cases m' with
    | nil => rfl
    | cons p m' =>
      obtain ⟨b, x⟩ := p
      simp only [Memory.wfFrom, Bool.and_eq_true, decide_eq_true_eq] at h'
      exact absurd (by simpa [Memory.lookup] using (hl b).symm) h'.1.2
  | cons p m ih =>
    intro m' lo h h' hl
    obtain ⟨b, x⟩ := p
    simp only [Memory.wfFrom, Bool.and_eq_true, decide_eq_true_eq] at h
    cases m' with
    | nil => exact absurd (by simpa [Memory.lookup] using hl b) h.1.2
    | cons p' m' =>
      obtain ⟨b', x'⟩ := p'
      simp only [Memory.wfFrom, Bool.and_eq_true, decide_eq_true_eq] at h'
      rcases Nat.lt_trichotomy b b' with hb | hb | hb
      · have := hl b
        rw [Memory.lookup_eq_unlisted_of_lt (lo := b + 1) (m := (b', x') :: m')
          (by simp only [Memory.wfFrom, Bool.and_eq_true, decide_eq_true_eq]; exact ⟨⟨⟨hb, h'.1.1.2⟩, h'.1.2⟩, h'.2⟩)
          (Nat.lt_succ_self b)] at this
        exact absurd (by simpa [Memory.lookup] using this) h.1.2
      · subst hb
        have hx : x = x' := by simpa [Memory.lookup] using hl b
        have ht : m = m' := ih m' (b + 1) h.2 h'.2 (fun c => by
          by_cases hc : c = b
          · subst hc
            rw [Memory.lookup_eq_unlisted_of_lt h.2 (Nat.lt_succ_self c),
              Memory.lookup_eq_unlisted_of_lt h'.2 (Nat.lt_succ_self c)]
          · simpa [Memory.lookup, hc] using hl c)
        rw [hx, ht]
      · have := hl b'
        rw [Memory.lookup_eq_unlisted_of_lt (lo := b' + 1) (m := (b, x) :: m)
          (by simp only [Memory.wfFrom, Bool.and_eq_true, decide_eq_true_eq]; exact ⟨⟨⟨hb, h.1.1.2⟩, h.1.2⟩, h.2⟩)
          (Nat.lt_succ_self b')] at this
        exact absurd (by simpa [Memory.lookup] using this.symm) h'.1.2

theorem Memory.lookup_of_ge {m : Memory} {lo c : Nat} (h : Memory.wfFrom lo m = true) (hc : 64 ≤ c) :
    Memory.lookup c m = Memory.unlisted := by
  induction m generalizing lo with
  | nil => rfl
  | cons p m ih =>
    obtain ⟨b, x⟩ := p
    simp only [Memory.wfFrom, Bool.and_eq_true, decide_eq_true_eq] at h
    have hne : c ≠ b := by omega
    simp only [Memory.lookup, if_neg hne]
    exact ih h.2

/-- Equal buffers are equal lists: two canonical buffers that read the same at every address are the same. -/
theorem Memory.eq_of_read_eq {m m' : Memory} (h : m.wf = true) (h' : m'.wf = true)
    (hr : ∀ a : Addr, m.read a = m'.read a) : m = m' := by
  refine Memory.eq_of_lookup_eq m m' 0 h h' (fun c => ?_)
  by_cases hc : c < 64
  · simpa [Memory.read, Nat.mod_eq_of_lt hc] using hr (BitVec.ofNat 6 c)
  · rw [Memory.lookup_of_ge h (by omega), Memory.lookup_of_ge h' (by omega)]

/-! ### Little-endian words (R38) -/

theorem byteAt_eq_ofNat {n : Nat} (v : BitVec n) (j : Nat) : byteAt v j = BitVec.ofNat 8 (v.toNat / 2 ^ (8 * j)) := by
  apply BitVec.eq_of_toNat_eq
  simp [byteAt, BitVec.extractLsb'_toNat, Nat.shiftRight_eq_div_pow]

/-- The four addresses of message word k, as the sum of R38. -/
theorem messageWord_toNat (m : Memory) (k : BitVec 4) :
    (messageWord m k).toNat
      = (m.read (BitVec.ofNat 6 (4 * k.toNat))).toNat
        + (m.read (BitVec.ofNat 6 (4 * k.toNat + 1))).toNat * 2 ^ 8
        + (m.read (BitVec.ofNat 6 (4 * k.toNat + 2))).toNat * 2 ^ 16
        + (m.read (BitVec.ofNat 6 (4 * k.toNat + 3))).toNat * 2 ^ 24 := by
  have e (j : Nat) : BitVec.ofNat 6 (4 * k.toNat) + BitVec.ofNat 6 j = BitVec.ofNat 6 (4 * k.toNat + j) := by
    apply BitVec.eq_of_toNat_eq; simp [BitVec.toNat_add]
  simp only [messageWord, Memory.readLE, e, Nat.add_zero, BitVec.toNat_ofNat]
  have h0 := (m.read (BitVec.ofNat 6 (4 * k.toNat))).isLt
  have h1 := (m.read (BitVec.ofNat 6 (4 * k.toNat + 1))).isLt
  have h2 := (m.read (BitVec.ofNat 6 (4 * k.toNat + 2))).isLt
  have h3 := (m.read (BitVec.ofNat 6 (4 * k.toNat + 3))).isLt
  rw [Nat.mod_eq_of_lt (by omega)]
  omega

/-- Message word k depends on the four bytes it is made of, and on nothing else. -/
theorem messageWord_congr {m m' : Memory} (h : ∀ a : Addr, m.read a = m'.read a) (k : BitVec 4) :
    messageWord m k = messageWord m' k := by
  apply BitVec.eq_of_toNat_eq
  simp only [messageWord_toNat, h]

end Sys2Proof.Machine
end

