-- ==== Sys2Proof/Laws/State.lean ====
section
/-! SUPPORT. What each whole-state update writes and what it leaves, field by field. -/

namespace Sys2Proof.Machine

/-! ### Fault entry -/

@[simp] theorem raise_H (c : Cause) (s : State) : (raise c s).H = s.H := rfl
@[simp] theorem raise_W (c : Cause) (s : State) : (raise c s).W = s.W := rfl
@[simp] theorem raise_buf (c : Cause) (s : State) : (raise c s).buf = s.buf := rfl
@[simp] theorem raise_L (c : Cause) (s : State) : (raise c s).L = s.L := rfl
@[simp] theorem raise_fill (c : Cause) (s : State) : (raise c s).fill = s.fill := rfl
@[simp] theorem raise_rnd (c : Cause) (s : State) : (raise c s).rnd = s.rnd := rfl
@[simp] theorem raise_fsm (c : Cause) (s : State) : (raise c s).fsm = .fault := rfl
@[simp] theorem raise_ecode (c : Cause) (s : State) : (raise c s).ecode = c.code := rfl
@[simp] theorem raise_rdata (c : Cause) (s : State) : (raise c s).rdata = s.rdata := rfl
@[simp] theorem raise_input (c : Cause) (s : State) : (raise c s).input = s.input := rfl
@[simp] theorem raise_unit (c : Cause) (s : State) : (raise c s).unit = s.unit := rfl
@[simp] theorem raise_draws (c : Cause) (s : State) : (raise c s).draws = s.draws := rfl

/-! ### StartCompress -/

@[simp] theorem startCompress_H (b : Block) (s : State) : (startCompress b s).H = s.H := rfl
@[simp] theorem startCompress_W (b : Block) (s : State) : (startCompress b s).W = s.H := rfl
@[simp] theorem startCompress_buf (b : Block) (s : State) : (startCompress b s).buf = s.buf := rfl
@[simp] theorem startCompress_L (b : Block) (s : State) : (startCompress b s).L = s.L := rfl
@[simp] theorem startCompress_fill (b : Block) (s : State) : (startCompress b s).fill = s.fill := rfl
@[simp] theorem startCompress_rnd (b : Block) (s : State) : (startCompress b s).rnd = 0#6 := rfl
@[simp] theorem startCompress_fsm (b : Block) (s : State) : (startCompress b s).fsm = .busy b := rfl
@[simp] theorem startCompress_ecode (b : Block) (s : State) : (startCompress b s).ecode = s.ecode := rfl
@[simp] theorem startCompress_rdata (b : Block) (s : State) : (startCompress b s).rdata = s.rdata := rfl
@[simp] theorem startCompress_input (b : Block) (s : State) : (startCompress b s).input = s.input := rfl
@[simp] theorem startCompress_unit (b : Block) (s : State) : (startCompress b s).unit = s.unit := rfl
@[simp] theorem startCompress_draws (b : Block) (s : State) : (startCompress b s).draws = s.draws := rfl

/-! ### Reset -/

@[simp] theorem resetAction_H (s : State) : (resetAction s).H = iv := rfl
@[simp] theorem resetAction_W (s : State) : (resetAction s).W = freeWords s.unit s.draws := rfl
@[simp] theorem resetAction_buf (s : State) : (resetAction s).buf = Memory.writeRange [] (Config.freeBuffer s.unit s.draws) 0 64 := rfl
@[simp] theorem resetAction_L (s : State) : (resetAction s).L = 0#64 := rfl
@[simp] theorem resetAction_fill (s : State) : (resetAction s).fill = 0#6 := rfl
@[simp] theorem resetAction_rnd (s : State) : (resetAction s).rnd = 0#6 := rfl
@[simp] theorem resetAction_fsm (s : State) : (resetAction s).fsm = .idle := rfl
@[simp] theorem resetAction_ecode (s : State) : (resetAction s).ecode = 0#4 := rfl
@[simp] theorem resetAction_rdata (s : State) : (resetAction s).rdata = 0#32 := rfl
@[simp] theorem resetAction_input (s : State) : (resetAction s).input = s.input := rfl
@[simp] theorem resetAction_unit (s : State) : (resetAction s).unit = s.unit := rfl
@[simp] theorem resetAction_draws (s : State) : (resetAction s).draws = s.draws + 1 := rfl

/-! ### INIT -/

@[simp] theorem initMessage_H (s : State) : (initMessage s).H = iv := rfl
@[simp] theorem initMessage_W (s : State) : (initMessage s).W = s.W := rfl
@[simp] theorem initMessage_buf (s : State) : (initMessage s).buf = s.buf := rfl
@[simp] theorem initMessage_L (s : State) : (initMessage s).L = 0#64 := rfl
@[simp] theorem initMessage_fill (s : State) : (initMessage s).fill = 0#6 := rfl
@[simp] theorem initMessage_rnd (s : State) : (initMessage s).rnd = 0#6 := rfl
@[simp] theorem initMessage_fsm (s : State) : (initMessage s).fsm = .idle := rfl
@[simp] theorem initMessage_ecode (s : State) : (initMessage s).ecode = s.ecode := rfl
@[simp] theorem initMessage_rdata (s : State) : (initMessage s).rdata = s.rdata := rfl
@[simp] theorem initMessage_input (s : State) : (initMessage s).input = s.input := rfl
@[simp] theorem initMessage_unit (s : State) : (initMessage s).unit = s.unit := rfl
@[simp] theorem initMessage_draws (s : State) : (initMessage s).draws = s.draws := rfl

/-! ### LoadLengthBlock -/

@[simp] theorem loadLengthBlock_H (s : State) : (loadLengthBlock s).H = s.H := rfl
@[simp] theorem loadLengthBlock_W (s : State) : (loadLengthBlock s).W = s.H := rfl
@[simp] theorem loadLengthBlock_buf (s : State) : (loadLengthBlock s).buf = appendLength s.L (s.buf.writeRange (fun _ => 0#8) 0 56) := rfl
@[simp] theorem loadLengthBlock_L (s : State) : (loadLengthBlock s).L = s.L := rfl
@[simp] theorem loadLengthBlock_fill (s : State) : (loadLengthBlock s).fill = s.fill := rfl
@[simp] theorem loadLengthBlock_rnd (s : State) : (loadLengthBlock s).rnd = 0#6 := rfl
@[simp] theorem loadLengthBlock_fsm (s : State) : (loadLengthBlock s).fsm = .busy .compLast := rfl
@[simp] theorem loadLengthBlock_ecode (s : State) : (loadLengthBlock s).ecode = s.ecode := rfl
@[simp] theorem loadLengthBlock_rdata (s : State) : (loadLengthBlock s).rdata = s.rdata := rfl
@[simp] theorem loadLengthBlock_input (s : State) : (loadLengthBlock s).input = s.input := rfl
@[simp] theorem loadLengthBlock_unit (s : State) : (loadLengthBlock s).unit = s.unit := rfl
@[simp] theorem loadLengthBlock_draws (s : State) : (loadLengthBlock s).draws = s.draws := rfl

end Sys2Proof.Machine
end

