-- ==== Sys2Proof/Laws/Exec.lean ====
section
/-! SUPPORT. The meanings by the FSM state they are accepted in, and what the padding unit leaves in the buffer. -/

namespace Sys2Proof.Machine

/-! ### The flags by the FSM state -/

theorem isBusy_eq_true {s : State} : s.isBusy = true ↔ ∃ b, s.fsm = .busy b := by
  unfold State.isBusy; cases s.fsm <;> simp

theorem isBusy_eq_false {s : State} : s.isBusy = false ↔ s.fsm = .idle ∨ s.fsm = .done ∨ s.fsm = .fault := by
  unfold State.isBusy; cases s.fsm <;> simp

theorem fsm_cases (s : State) : s.fsm = .fault ∨ (∃ b, s.fsm = .busy b) ∨ s.fsm = .idle ∨ s.fsm = .done := by
  cases s.fsm <;> simp

theorem isDone_eq_true {s : State} : s.isDone = true ↔ s.fsm = .done := by
  unfold State.isDone; cases s.fsm <;> simp

theorem isErr_eq_true {s : State} : s.isErr = true ↔ s.fsm = .fault := by
  unfold State.isErr; cases s.fsm <;> simp

theorem isErr_eq_false {s : State} : s.isErr = false ↔ s.fsm ≠ .fault := by
  unfold State.isErr; cases s.fsm <;> simp

/-! ### The meanings -/

@[simp] theorem exec_nop (s : State) : exec .nop s = .next s := rfl

theorem exec_of_fault {s : State} (h : s.fsm = .fault) (i : Instr) : exec i s = .next s := by
  cases i <;> simp [exec, execNop, execInit, execAbsorb, execFinal, execRdword, execRdbyte, execRdhex, readCommand, h]

theorem exec_of_busy {s : State} {b : Block} (h : s.fsm = .busy b) (i : Instr) : exec i s = .next s := by
  cases i <;> simp [exec, execNop, execInit, execAbsorb, execFinal, execRdword, execRdbyte, execRdhex, readCommand, h]

theorem exec_init {s : State} (h : s.fsm = .idle ∨ s.fsm = .done) : exec .init s = .next (initMessage s) := by
  rcases h with h | h <;> simp [exec, execInit, h]

theorem exec_absorb_idle {s : State} (h : s.fsm = .idle) (b : Byte) :
    exec (.absorb b) s = .next (absorbByte b s) := by simp [exec, execAbsorb, h]

theorem exec_absorb_done {s : State} (h : s.fsm = .done) (b : Byte) :
    exec (.absorb b) s = .next (raise .sequenceAfterFinal s) := by simp [exec, execAbsorb, h]

theorem exec_final_idle {s : State} (h : s.fsm = .idle) : exec .final s = .next (finalPad s) := by
  simp [exec, execFinal, h]

theorem exec_final_done {s : State} (h : s.fsm = .done) : exec .final s = .next (raise .sequenceAfterFinal s) := by
  simp [exec, execFinal, h]

theorem exec_rdword (w : Byte) (s : State) :
    exec (.rdword w) s = .next (readCommand 3 w (s.H.word (w.setWidth 2)) s) := rfl

theorem exec_rdbyte (j : Byte) (s : State) :
    exec (.rdbyte j) s = .next (readCommand 15 j ((digestByte s.H (j.setWidth 4)).setWidth 32) s) := rfl

theorem exec_rdhex (p : Byte) (s : State) :
    exec (.rdhex p) s = .next (readCommand 31 p ((hexChar (digestNibble s.H (p.setWidth 5))).setWidth 32) s) := rfl

theorem readCommand_idle {s : State} (h : s.fsm = .idle) (n : Nat) (x : Byte) (v : Word) :
    readCommand n x v s = raise (if n < x.toNat then .operandRange else .readBeforeDone) s := by
  simp only [readCommand, h]; split <;> rfl

theorem readCommand_done {s : State} (h : s.fsm = .done) (n : Nat) (x : Byte) (v : Word) :
    readCommand n x v s = if n < x.toNat then raise .operandRange s else { s with rdata := v } := by
  simp only [readCommand, h]

/-- What a read command can do, in every state. -/
theorem readCommand_cases (n : Nat) (x : Byte) (v : Word) (s : State) :
    readCommand n x v s = s ∨ (s.fsm = .done ∧ x.toNat ≤ n ∧ readCommand n x v s = { s with rdata := v }) ∨
      (∃ c, (c = .operandRange ∨ c = .readBeforeDone) ∧ (s.fsm = .idle ∨ s.fsm = .done) ∧
        readCommand n x v s = raise c s) := by
  rcases fsm_cases s with h | ⟨b, h⟩ | h | h
  · left; simp [readCommand, h]
  · left; simp [readCommand, h]
  · right; right; rw [readCommand_idle h]; split <;> simp [h]
  · right; rw [readCommand_done h]
    split
    · right; exact ⟨_, .inl rfl, .inr h, rfl⟩
    · left; exact ⟨h, by omega, rfl⟩

/-- A read command of the table. -/
def Instr.IsRead (i : Instr) : Prop := ∃ x, i = .rdword x ∨ i = .rdbyte x ∨ i = .rdhex x

/-- Everything a command can do. -/
inductive ExecCase (i : Instr) (s t : State) : Prop where
  | same (why : i = .nop ∨ s.fsm = .fault ∨ s.isBusy = true) (ht : t = s)
  | init (hi : i = .init) (hf : s.fsm = .idle ∨ s.fsm = .done) (ht : t = initMessage s)
  | absorb (b : Byte) (hi : i = .absorb b) (hf : s.fsm = .idle) (ht : t = absorbByte b s)
  | final (hi : i = .final) (hf : s.fsm = .idle) (ht : t = finalPad s)
  | read (v : Word) (hi : Instr.IsRead i) (hf : s.fsm = .done) (ht : t = { s with rdata := v })
  | raised (c : Cause) (hi : i ≠ .nop ∧ i ≠ .init) (hf : s.fsm = .idle ∨ s.fsm = .done)
      (hc : Instr.IsRead i → c = .operandRange ∨ c = .readBeforeDone) (ht : t = raise c s)

theorem readCase {i : Instr} {s : State} {n : Nat} {x : Byte} {v : Word} (hi : Instr.IsRead i) :
    ExecCase i s (readCommand n x v s) := by
  have hne : i ≠ .nop ∧ i ≠ .init := by
    obtain ⟨y, rfl | rfl | rfl⟩ := hi <;> exact ⟨nofun, nofun⟩
  rcases fsm_cases s with h | ⟨b, h⟩ | h | h
  · exact .same (.inr (.inl h)) (by simp [readCommand, h])
  · exact .same (.inr (.inr (isBusy_eq_true.2 ⟨b, h⟩))) (by simp [readCommand, h])
  all_goals
    rcases readCommand_cases n x v s with e | ⟨hd, _, e⟩ | ⟨c, hc, hf, e⟩
  · rw [readCommand_idle h] at e
    exact absurd (congrArg State.fsm e) (by simp [h])
  · exact .read v hi hd e
  · exact .raised c hne hf (fun _ => hc) e
  · rw [e]; exact .read s.rdata hi h rfl
  · exact .read v hi hd e
  · exact .raised c hne hf (fun _ => hc) e

/-- Every command has a next state, and it is one of these. -/
theorem exec_next (i : Instr) (s : State) : ∃ t, exec i s = .next t ∧ ExecCase i s t := by
  have hb {b : Block} (h : s.fsm = .busy b) : s.isBusy = true := isBusy_eq_true.2 ⟨b, h⟩
  cases i with
  | nop => exact ⟨s, rfl, .same (.inl rfl) rfl⟩
  | rdword w => exact ⟨_, rfl, readCase ⟨w, .inl rfl⟩⟩
  | rdbyte j => exact ⟨_, rfl, readCase ⟨j, .inr (.inl rfl)⟩⟩
  | rdhex p => exact ⟨_, rfl, readCase ⟨p, .inr (.inr rfl)⟩⟩
  | init =>
    rcases fsm_cases s with h | ⟨b, h⟩ | h | h
    · exact ⟨s, exec_of_fault h _, .same (.inr (.inl h)) rfl⟩
    · exact ⟨s, exec_of_busy h _, .same (.inr (.inr (hb h))) rfl⟩
    · exact ⟨_, exec_init (.inl h), .init rfl (.inl h) rfl⟩
    · exact ⟨_, exec_init (.inr h), .init rfl (.inr h) rfl⟩
  | absorb b =>
    rcases fsm_cases s with h | ⟨c, h⟩ | h | h
    · exact ⟨s, exec_of_fault h _, .same (.inr (.inl h)) rfl⟩
    · exact ⟨s, exec_of_busy h _, .same (.inr (.inr (hb h))) rfl⟩
    · exact ⟨_, exec_absorb_idle h b, .absorb b rfl h rfl⟩
    · exact ⟨_, exec_absorb_done h b, .raised _ ⟨nofun, nofun⟩ (.inr h) (fun ⟨_, hx⟩ => by simp at hx) rfl⟩
  | final =>
    rcases fsm_cases s with h | ⟨b, h⟩ | h | h
    · exact ⟨s, exec_of_fault h _, .same (.inr (.inl h)) rfl⟩
    · exact ⟨s, exec_of_busy h _, .same (.inr (.inr (hb h))) rfl⟩
    · exact ⟨_, exec_final_idle h, .final rfl h rfl⟩
    · exact ⟨_, exec_final_done h, .raised _ ⟨nofun, nofun⟩ (.inr h) (fun ⟨_, hx⟩ => by simp at hx) rfl⟩

theorem exec_cases {i : Instr} {s t : State} (h : exec i s = .next t) : ExecCase i s t := by
  obtain ⟨u, hu, hc⟩ := exec_next i s
  rw [h] at hu
  cases hu
  exact hc

/-! ### The padding unit -/

theorem absorbByte_of_lt {s : State} (h : s.fill.toNat < 63) (b : Byte) :
    absorbByte b s = { s with buf := s.buf.write s.fill b, L := s.L + 8#64, fill := s.fill + 1#6 } := by
  have : s.fill ≠ 63#6 := fun e => by rw [e] at h; exact absurd h (by decide)
  simp [absorbByte, this]

theorem absorbByte_of_eq {s : State} (h : s.fill.toNat = 63) (b : Byte) :
    absorbByte b s = { s with
      buf := s.buf.write s.fill b, L := s.L + 8#64, fill := 0#6, W := s.H, rnd := 0#6, fsm := .busy .comp } := by
  have : s.fill = 63#6 := BitVec.eq_of_toNat_eq h
  simp [absorbByte, this, startCompress]

/-- The buffer after the padding of a block, before the length. -/
theorem read_padTail (f : BitVec 6) (m : Memory) (a : Addr) :
    (padTail f m).read a = if a.toNat < f.toNat then m.read a else if a = f then 0x80#8 else 0#8 := by
  have hf := f.isLt
  have ha := a.isLt
  have key : (a = f) ↔ a.toNat = f.toNat := (BitVec.toNat_inj).symm
  rw [padTail, Memory.read_writeRange _ _ _ _ _ (by omega), Memory.read_write]
  by_cases h1 : a.toNat < f.toNat
  · rw [if_neg (by omega), if_neg (by rw [key]; omega), if_pos h1]
  · rw [if_neg h1]
    by_cases h2 : a = f
    · rw [if_neg (by rw [key] at h2; omega), if_pos h2, if_pos h2]
    · rw [if_pos (by rw [key] at h2; omega), if_neg h2]

/-- The length append writes the last eight bytes. -/
theorem read_appendLength (L : BitVec 64) (m : Memory) (a : Addr) :
    (appendLength L m).read a = if 56 ≤ a.toNat then byteAt L (a.toNat - 56) else m.read a := by
  have ha := a.isLt
  rw [appendLength, Memory.read_writeLE _ _ _ _ _ (by decide)]
  by_cases h : 56 ≤ a.toNat
  · rw [if_pos h, if_pos ⟨h, by simpa using ha⟩]; rfl
  · rw [if_neg h, if_neg (fun hh => h hh.1)]

/-- The second padding block. -/
theorem read_lengthBlock (L : BitVec 64) (m : Memory) (a : Addr) :
    (appendLength L (m.writeRange (fun _ => 0#8) 0 56)).read a
      = if 56 ≤ a.toNat then byteAt L (a.toNat - 56) else 0#8 := by
  rw [read_appendLength, Memory.read_writeRange _ _ _ _ _ (by decide)]
  by_cases h : 56 ≤ a.toNat
  · simp [h]
  · rw [if_neg h, if_neg h, if_pos (by omega)]

theorem finalPad_eq (s : State) :
    finalPad s = { s with
      buf := if s.fill.toNat ≤ 55 then appendLength s.L (padTail s.fill s.buf) else padTail s.fill s.buf
      fill := 0#6
      W := s.H
      rnd := 0#6
      fsm := if s.fill.toNat ≤ 55 then .busy .compLast else .busy .compPad } := by
  unfold finalPad
  by_cases h : s.fill.toNat ≤ 55 <;> simp [h, startCompress]

/-- The block FINAL compresses: the message tail, 0x80, zeros, and the length when it fits (R70, R71). -/
theorem read_finalPad (s : State) (a : Addr) :
    (finalPad s).buf.read a
      = if a.toNat < s.fill.toNat then s.buf.read a else if a = s.fill then 0x80#8
        else if s.fill.toNat ≤ 55 ∧ 56 ≤ a.toNat then byteAt s.L (a.toNat - 56) else 0#8 := by
  have key : (a = s.fill) ↔ a.toNat = s.fill.toNat := (BitVec.toNat_inj).symm
  simp only [finalPad_eq]
  by_cases h : s.fill.toNat ≤ 55
  · rw [if_pos h, read_appendLength, read_padTail]
    by_cases h2 : 56 ≤ a.toNat
    · rw [if_pos h2, if_neg (by omega), if_neg (by rw [key]; omega), if_pos ⟨h, h2⟩]
    · simp [h2]
  · rw [if_neg h, read_padTail]; simp [h]

/-- The buffer keeps its canonical form through the padding unit. -/
theorem wf_finalPad {s : State} (h : s.buf.wf = true) : (finalPad s).buf.wf = true := by
  rw [finalPad_eq]
  have hp : (padTail s.fill s.buf).wf = true := Memory.wf_writeRange _ _ _ _ (Memory.wf_write _ _ h)
  dsimp only
  split
  · exact Memory.wf_writeLE _ _ _ hp
  · exact hp

theorem wf_lengthBlock {s : State} (h : s.buf.wf = true) : (loadLengthBlock s).buf.wf = true :=
  Memory.wf_writeLE _ _ _ (Memory.wf_writeRange _ _ _ _ h)

theorem wf_absorbByte {s : State} (b : Byte) (h : s.buf.wf = true) : (absorbByte b s).buf.wf = true := by
  rcases Nat.lt_or_ge s.fill.toNat 63 with hf | hf
  · rw [absorbByte_of_lt hf]; exact Memory.wf_write _ _ h
  · rw [absorbByte_of_eq (by have := s.fill.isLt; omega)]; exact Memory.wf_write _ _ h

/-! ### What every command keeps -/

theorem Cause.code_bounds (c : Cause) : 1 ≤ c.code.toNat ∧ c.code.toNat ≤ 4 := by cases c <;> decide

@[simp] theorem absorbByte_input (b : Byte) (s : State) : (absorbByte b s).input = s.input := by
  unfold absorbByte
  split <;> rfl

@[simp] theorem finalPad_input (s : State) : (finalPad s).input = s.input := by
  unfold finalPad
  split <;> rfl

/-- No command touches the host's moves. -/
theorem exec_input {i : Instr} {s t : State} (h : exec i s = .next t) : t.input = s.input := by
  cases exec_cases h <;> subst_vars <;> simp

end Sys2Proof.Machine
end

