-- ==== Sys2Proof/Laws/Engine.lean ====
section
/-! SUPPORT. The engine's steps: what a round leaves alone, the last round of each kind of block, and 64 rounds as the block
function. -/

namespace Sys2Proof.Machine

/-! ### One round -/

theorem roundStep_of_ne {s : State} (b : Block) (h : s.rnd ≠ 63#6) :
    roundStep b s = { s with
      W := roundWords s.rnd s.W (messageWord s.buf (kIndex s.rnd)), rnd := s.rnd + 1#6 } := by
  simp [roundStep, h]

theorem roundStep_last {s : State} (b : Block) (h : s.rnd = 63#6) :
    roundStep b s = endOfBlock b { s with W := roundWords 63#6 s.W (messageWord s.buf 9#4) } := by
  have k : kIndex 63#6 = 9#4 := by decide
  simp [roundStep, h, k]

/-- The working registers after the last round of a block, message word 9 with it (R98). -/
def lastWords (s : State) : Words4 := roundWords 63#6 s.W (messageWord s.buf 9#4)

theorem roundStep_last_comp {s : State} (h : s.rnd = 63#6) :
    roundStep .comp s = { s with W := lastWords s, H := s.H.add (lastWords s), rnd := 0#6, fsm := .idle } :=
  roundStep_last .comp h

theorem roundStep_last_compLast {s : State} (h : s.rnd = 63#6) :
    roundStep .compLast s = { s with W := lastWords s, H := s.H.add (lastWords s), rnd := 0#6, fsm := .done } :=
  roundStep_last .compLast h

theorem roundStep_last_compPad {s : State} (h : s.rnd = 63#6) :
    roundStep .compPad s = { s with
      W := s.H.add (lastWords s), H := s.H.add (lastWords s), rnd := 0#6, fsm := .busy .compLast,
      buf := appendLength s.L (s.buf.writeRange (fun _ => 0#8) 0 56) } :=
  roundStep_last .compPad h

/-- The registers no round writes. -/
theorem roundStep_frame (b : Block) (s : State) :
    (roundStep b s).L = s.L ∧ (roundStep b s).fill = s.fill ∧ (roundStep b s).ecode = s.ecode ∧
      (roundStep b s).rdata = s.rdata ∧ (roundStep b s).input = s.input := by
  by_cases h : s.rnd = 63#6
  · rw [roundStep_last b h]; cases b <;> simp [endOfBlock, blockDone]
  · rw [roundStep_of_ne b h]; simp

/-- A round takes the engine's moves with it: it does not look at them. -/
theorem roundStep_with_input (b : Block) (s : State) (q : List HostMove) :
    roundStep b { s with input := q } = { roundStep b s with input := q } := by
  by_cases h : s.rnd = 63#6
  · rw [roundStep_last b h, roundStep_last b (s := { s with input := q }) h]
    cases b <;> rfl
  · rw [roundStep_of_ne b h, roundStep_of_ne b (s := { s with input := q }) h]

/-- The end of a block by its kind (R97). -/
theorem endOfBlock_fsm (b : Block) (s : State) :
    (endOfBlock b s).fsm = match b with
      | .comp => .idle
      | .compPad => .busy .compLast
      | .compLast => .done := by
  cases b <;> rfl

@[simp] theorem endOfBlock_rnd (b : Block) (s : State) : (endOfBlock b s).rnd = 0#6 := by cases b <;> rfl

@[simp] theorem endOfBlock_H (b : Block) (s : State) : (endOfBlock b s).H = s.H.add s.W := by cases b <;> rfl

theorem wf_roundStep {s : State} (b : Block) (h : s.buf.wf = true) : (roundStep b s).buf.wf = true := by
  by_cases hr : s.rnd = 63#6
  · rw [roundStep_last b hr]
    cases b
    · exact h
    · exact wf_lengthBlock (s := { s with W := _, H := _, rnd := _ }) h
    · exact h
  · rw [roundStep_of_ne b hr]; exact h

/-! ### The rounds of a block (R82) -/

@[simp] theorem rounds_zero (M : BitVec 4 → Word) (w : Words4) : rounds M 0 w = w := by rw [rounds]

theorem rounds_succ (M : BitVec 4 → Word) (n : Nat) (w : Words4) :
    rounds M (n + 1) w = roundWords (BitVec.ofNat 6 n) (rounds M n w) (M (kIndex (BitVec.ofNat 6 n))) := by
  rw [rounds]

/-- The block function depends on the message words only. -/
theorem rounds_congr {M M' : BitVec 4 → Word} (h : ∀ k, M k = M' k) (n : Nat) (w : Words4) :
    rounds M n w = rounds M' n w := by
  rw [show M = M' from funext h]

/-- The engine after `n` rounds of a block that has not ended. -/
def midBlock (n : Nat) (s : State) : State :=
  { s with W := rounds (messageWord s.buf) n s.W, rnd := BitVec.ofNat 6 n }

theorem midBlock_zero {s : State} (h : s.rnd = 0#6) : midBlock 0 s = s := by
  cases s; simp only [midBlock, rounds_zero] at *; simp [h]

theorem roundStep_midBlock {n : Nat} (hn : n < 63) (b : Block) (s : State) :
    roundStep b (midBlock n s) = midBlock (n + 1) s := by
  have h : (midBlock n s).rnd ≠ 63#6 := by
    intro e
    have := congrArg BitVec.toNat e
    simp [midBlock] at this
    omega
  have e : BitVec.ofNat 6 n + 1#6 = BitVec.ofNat 6 (n + 1) := by
    apply BitVec.eq_of_toNat_eq; simp [BitVec.toNat_add]
  rw [roundStep_of_ne b h]
  simp only [midBlock, rounds_succ, e]

/-- The last round of a block that has gone `n` = 63 rounds from `s`. -/
theorem roundStep_midBlock_last {n : Nat} (hn : n = 63) (b : Block) (s : State) :
    roundStep b (midBlock n s)
      = endOfBlock b { s with W := rounds (messageWord s.buf) (n + 1) s.W, rnd := 63#6 } := by
  have h6 : BitVec.ofNat 6 n = 63#6 := by rw [hn]
  have k : kIndex (63#6) = 9#4 := by decide
  rw [roundStep_last b (s := midBlock n s) h6, rounds_succ, h6, k]
  simp only [midBlock, h6]

end Sys2Proof.Machine
end

