-- ==== Sys2Proof/Laws/Step.lean ====
section
/-! SUPPORT. What one step can do, said once: a reset, a round, a quiet edge, a discarded word, a decode error, or a command. -/

namespace Sys2Proof.Machine

/-! ### The step, by the host's next move -/

theorem step_reset {s : State} {rest : List HostMove} (h : s.input = .reset :: rest) :
    step s = .next (resetAction { s with input := rest }) := by
  simp [step, takeMove, h, edge]

theorem step_busy_command {s : State} {b : Block} {w : Cmd} {rest : List HostMove} (hb : s.fsm = .busy b)
    (h : s.input = .command w :: rest) : step s = .next (roundStep b s) := by
  simp [step, takeMove, h, edge, hb, isBusy_eq_true.2 ⟨b, hb⟩]

theorem step_busy_idle {s : State} {b : Block} {rest : List HostMove} (hb : s.fsm = .busy b)
    (h : s.input = .idle :: rest) : step s = .next (roundStep b { s with input := rest }) := by
  simp [step, takeMove, h, edge, hb, Pins.quiet]

theorem step_busy_nil {s : State} {b : Block} (hb : s.fsm = .busy b) (h : s.input = []) :
    step s = .next (roundStep b s) := by
  simp [step, takeMove, h, edge, hb, Pins.quiet]

theorem step_quiet_nil {s : State} (hb : s.isBusy = false) (h : s.input = []) : step s = .next s := by
  rcases isBusy_eq_false.1 hb with hf | hf | hf <;> simp [step, takeMove, h, edge, hf, Pins.quiet]

theorem step_quiet_idle {s : State} {rest : List HostMove} (hb : s.isBusy = false) (h : s.input = .idle :: rest) :
    step s = .next { s with input := rest } := by
  rcases isBusy_eq_false.1 hb with hf | hf | hf <;> simp [step, takeMove, h, edge, hf, Pins.quiet]

/-- An engine that is not BUSY takes the presented word from the queue and accepts it. -/
theorem step_accept {s : State} {w : Cmd} {rest : List HostMove} (hb : s.isBusy = false)
    (h : s.input = .command w :: rest) : step s = accept w { s with input := rest } := by
  rcases isBusy_eq_false.1 hb with hf | hf | hf <;> simp [step, takeMove, h, edge, hb, hf]

theorem accept_of_fault {s : State} (h : s.fsm = .fault) (w : Cmd) : accept w s = .next s := by
  simp [accept, h]

theorem accept_error {s : State} {w : Cmd} {e : DecodeError} (h : s.fsm ≠ .fault) (hd : decode w = .error e) :
    accept w s = .next (raise (causeOf e) s) := by
  cases hf : s.fsm <;> simp_all [accept]

theorem accept_command {s : State} {w : Cmd} {i : Instr} (hd : decode w = .command i) : accept w s = exec i s := by
  cases hf : s.fsm with
  | fault => rw [accept_of_fault hf, exec_of_fault hf]
  | idle => simp [accept, hf, hd]
  | done => simp [accept, hf, hd]
  | busy b => simp [accept, hf, hd]

/-! ### Inversion -/

/-- Everything a step can do. `q` is what is left of the host's moves. -/
inductive StepCase (s t : State) : Prop where
  | reset (rest : List HostMove) (hin : s.input = .reset :: rest) (ht : t = resetAction { s with input := rest })
  | round (b : Block) (q : List HostMove) (hb : s.fsm = .busy b) (hq : q = s.input ∨ s.input = .idle :: q)
      (hr : ¬ s.AtReset) (ht : t = roundStep b { s with input := q })
  | quiet (q : List HostMove) (hb : s.isBusy = false) (hq : (q = [] ∧ s.input = []) ∨ s.input = .idle :: q)
      (ht : t = { s with input := q })
  | discard (w : Cmd) (rest : List HostMove) (hf : s.fsm = .fault) (hin : s.input = .command w :: rest)
      (ht : t = { s with input := rest })
  | error (w : Cmd) (rest : List HostMove) (e : DecodeError) (hf : s.fsm = .idle ∨ s.fsm = .done)
      (hin : s.input = .command w :: rest) (hd : decode w = .error e) (ht : t = raise (causeOf e) { s with input := rest })
  | command (w : Cmd) (rest : List HostMove) (i : Instr) (hf : s.fsm = .idle ∨ s.fsm = .done)
      (hin : s.input = .command w :: rest) (hd : decode w = .command i) (ht : exec i { s with input := rest } = .next t)

theorem step_cases {s t : State} (h : step s = .next t) : StepCase s t := by
  have out {u : State} (hu : step s = .next u) : t = u := by rw [h] at hu; exact Host.Outcome.next.inj hu
  cases hin : s.input with
  | nil =>
    cases hb : s.isBusy with
    | true =>
      obtain ⟨b, hf⟩ := isBusy_eq_true.1 hb
      exact .round b s.input hf (.inl rfl) (fun ⟨r, hr⟩ => by simp [hin] at hr) (out (step_busy_nil hf hin))
    | false => exact .quiet [] hb (.inl ⟨rfl, hin⟩) (by rw [← hin]; exact out (step_quiet_nil hb hin))
  | cons mv rest =>
    cases mv with
    | reset => exact .reset rest hin (out (step_reset hin))
    | idle =>
      cases hb : s.isBusy with
      | true =>
        obtain ⟨b, hf⟩ := isBusy_eq_true.1 hb
        exact .round b rest hf (.inr hin) (fun ⟨r, hr⟩ => by simp [hin] at hr) (out (step_busy_idle hf hin))
      | false => exact .quiet rest hb (.inr hin) (out (step_quiet_idle hb hin))
    | command w =>
      cases hb : s.isBusy with
      | true =>
        obtain ⟨b, hf⟩ := isBusy_eq_true.1 hb
        exact .round b s.input hf (.inl rfl) (fun ⟨r, hr⟩ => by simp [hin] at hr) (out (step_busy_command hf hin))
      | false =>
        have ha := step_accept hb hin
        rcases isBusy_eq_false.1 hb with hf | hf | hf
        · cases hd : decode w with
          | error e => exact .error w rest e (.inl hf) hin hd (out (ha.trans (accept_error (by simp [hf]) hd)))
          | command i => exact .command w rest i (.inl hf) hin hd (by rw [← accept_command hd, ← ha, h])
        · cases hd : decode w with
          | error e => exact .error w rest e (.inr hf) hin hd (out (ha.trans (accept_error (by simp [hf]) hd)))
          | command i => exact .command w rest i (.inr hf) hin hd (by rw [← accept_command hd, ← ha, h])
        · exact .discard w rest hf hin (out (ha.trans (accept_of_fault (s := { s with input := rest }) hf w)))

/-! ### Runs -/

theorem run_zero (s : State) : run 0 s = .next s := rfl

/-- One step, then the rest of the run. -/
theorem run_succ_eq (s : State) (k : Nat) :
    run (k + 1) s = match step s with
      | .next t => run k t
      | .fault r => .fault r
      | .refused r => .refused r := by
  refine Eq.trans (Host.Core.run.eq_2 Sys2Proof.core s k) ?_
  generalize hx : step s = x
  have hx' : Sys2Proof.core.step s = x := hx
  rw [hx']
  cases x <;> rfl

theorem run_succ {s t : State} (k : Nat) (h : step s = .next t) : run (k + 1) s = run k t := by
  rw [run_succ_eq, h]

theorem run_succ_inv {s t : State} {k : Nat} (h : run (k + 1) s = .next t) : ∃ u, step s = .next u ∧ run k u = .next t := by
  rw [run_succ_eq] at h
  cases hs : step s with
  | next u => rw [hs] at h; exact ⟨u, rfl, h⟩
  | fault r => rw [hs] at h; cases h
  | refused r => rw [hs] at h; cases h

theorem run_add {s t : State} (j k : Nat) (h : run j s = .next t) : run (j + k) s = run k t := by
  induction j generalizing s with
  | zero => rw [run_zero] at h; cases h; rw [Nat.zero_add]
  | succ j ih =>
    obtain ⟨u, hu, hr⟩ := run_succ_inv h
    rw [Nat.add_right_comm, run_succ _ hu]
    exact ih hr

end Sys2Proof.Machine
end

