-- ==== Sys2Proof/Laws/Block.lean ====
section
/-! SUPPORT. The 64 steps of a block under any moves of the host that hold no reset: what they leave in the engine, and that the
host's commands still wait. -/

namespace Sys2Proof.Machine

/-- A busy step without a reset is a round, and keeps the commands the host has issued. -/
theorem step_round {s : State} {b : Block} (hb : s.fsm = .busy b) (hr : noReset s.input = true) :
    ∃ q, step s = .next { roundStep b s with input := q } ∧ noReset q = true ∧ issued q = issued s.input ∧ q <:+ s.input := by
  have hi : (roundStep b s).input = s.input := (roundStep_frame b s).2.2.2.2
  have self : { roundStep b s with input := s.input } = roundStep b s := by rw [← hi]
  cases hin : s.input with
  | nil => exact ⟨[], by rw [step_busy_nil hb hin, ← hin, self], rfl, rfl, List.suffix_refl _⟩
  | cons mv rest =>
    rw [hin] at hr
    have hr' : noReset rest = true := by
      simp only [noReset, List.all_cons, Bool.and_eq_true] at hr
      exact hr.2
    cases mv with
    | reset => simp [noReset] at hr
    | idle =>
      refine ⟨rest, ?_, hr', by simp [issued], List.suffix_cons _ _⟩
      rw [step_busy_idle hb hin, roundStep_with_input]
    | command w => exact ⟨.command w :: rest, by rw [step_busy_command hb hin, ← hin, self], hr, rfl, List.suffix_refl _⟩

/-- The first `n` rounds of a block. -/
theorem run_midBlock {s : State} {b : Block} (hb : s.fsm = .busy b) (h0 : s.rnd = 0#6) (hr : noReset s.input = true) :
    ∀ n, n ≤ 63 → ∃ q, run n s = .next { midBlock n s with input := q } ∧ noReset q = true ∧ issued q = issued s.input ∧ q <:+ s.input := by
  intro n
  induction n with
  | zero => intro _; exact ⟨s.input, by rw [midBlock_zero h0]; rfl, hr, rfl, List.suffix_refl _⟩
  | succ n ih =>
    intro hn
    obtain ⟨q, hq, hqr, hqi, hqs⟩ := ih (by omega)
    obtain ⟨q', hs, hr', hi', hs'⟩ := step_round (s := { midBlock n s with input := q }) (b := b) hb hqr
    refine ⟨q', ?_, hr', hi'.trans hqi, hs'.trans hqs⟩
    rw [run_add n 1 hq, run_succ 0 hs, run_zero, roundStep_with_input, roundStep_midBlock (by omega)]

/-- What the 64 rounds of a block leave: the block function in H (R82, R96), the transition of R97, the length block after COMP_PAD
(R72), and every other register and every issued command as before. -/
structure BlockEnd (b : Block) (s t : State) : Prop where
  H : t.H = compress s.H (messageWord s.buf)
  rnd : t.rnd = 0#6
  L : t.L = s.L
  fill : t.fill = s.fill
  ecode : t.ecode = s.ecode
  rdata : t.rdata = s.rdata
  noReset : noReset t.input = true
  issued : issued t.input = issued s.input
  suffix : t.input <:+ s.input
  fsm : t.fsm = match b with
    | .comp => .idle
    | .compPad => .busy .compLast
    | .compLast => .done
  pad_W : b = .compPad → t.W = t.H
  pad_buf : b = .compPad → ∀ a : Addr, t.buf.read a = if 56 ≤ a.toNat then byteAt s.L (a.toNat - 56) else 0#8

theorem run_block_aux {s : State} {b : Block} (hb : s.fsm = .busy b) (h0 : s.rnd = 0#6) (hr : noReset s.input = true)
    {n : Nat} (hn : n = 63) {x : Words4} (hx : rounds (messageWord s.buf) (n + 1) s.W = x) :
    ∃ q, run (n + 1) s = .next { endOfBlock b { s with W := x, rnd := 63#6 } with input := q } ∧
      noReset q = true ∧ issued q = issued s.input ∧ q <:+ s.input := by
  obtain ⟨q, hq, hqr, hqi, hqs⟩ := run_midBlock hb h0 hr n (by omega)
  obtain ⟨q', hs, hr', hi', hs'⟩ := step_round (s := { midBlock n s with input := q }) (b := b) hb hqr
  refine ⟨q', ?_, hr', hi'.trans hqi, hs'.trans hqs⟩
  rw [run_add n 1 hq, run_succ 0 hs, run_zero, roundStep_with_input, roundStep_midBlock_last hn, hx]

theorem compress_eq (h : Words4) (M : BitVec 4 → Word) {n : Nat} (hn : n = 64) : compress h M = h.add (rounds M n h) := by
  rw [hn]; rfl

/-- All 64 rounds of a block, from StartCompress (R83). -/
theorem run_block {s : State} {b : Block} (hb : s.fsm = .busy b) (h0 : s.rnd = 0#6) (hW : s.W = s.H)
    (hr : noReset s.input = true) : ∃ t, run 64 s = .next t ∧ BlockEnd b s t := by
  obtain ⟨n, hn⟩ : ∃ n : Nat, n = 63 := ⟨63, rfl⟩
  have hc := compress_eq s.H (messageWord s.buf) (n := n + 1) (by omega)
  generalize hx : rounds (messageWord s.buf) (n + 1) s.H = x at hc
  rw [← hW] at hx
  obtain ⟨q, hq, hqr, hqi, hqs⟩ := run_block_aux hb h0 hr hn hx
  have h64 : n + 1 = 64 := by omega
  rw [h64] at hq
  refine ⟨_, hq, ?_⟩
  cases b with
  | comp => exact ⟨hc.symm, rfl, rfl, rfl, rfl, rfl, hqr, hqi, hqs, rfl, nofun, nofun⟩
  | compLast => exact ⟨hc.symm, rfl, rfl, rfl, rfl, rfl, hqr, hqi, hqs, rfl, nofun, nofun⟩
  | compPad =>
    exact ⟨hc.symm, rfl, rfl, rfl, rfl, rfl, hqr, hqi, hqs, rfl, fun _ => rfl, fun _ a => read_lengthBlock s.L s.buf a⟩

end Sys2Proof.Machine
end

