-- ==== Sys2Proof/Laws/Decode.lean ====
section
/-! SUPPORT. The fields of a command word and the words of the encoder as numbers. -/

namespace Sys2Proof

theorem opField_toNat (w : Cmd) : (opField w).toNat = w.toNat / 4096 := by
  have := w.isLt
  simp only [opField, BitVec.extractLsb'_toNat, Nat.shiftRight_eq_div_pow]
  omega

theorem rsvField_toNat (w : Cmd) : (rsvField w).toNat = w.toNat / 256 % 16 := by
  simp only [rsvField, BitVec.extractLsb'_toNat, Nat.shiftRight_eq_div_pow]

theorem immField_toNat (w : Cmd) : (immField w).toNat = w.toNat % 256 := by
  simp only [immField, BitVec.extractLsb'_toNat, Nat.shiftRight_eq_div_pow]
  omega

theorem commandWord_toNat (op : BitVec 4) (imm : Byte) : (commandWord op imm).toNat = 4096 * op.toNat + imm.toNat := by
  have h1 := op.isLt
  have h2 := imm.isLt
  have e : 2 ^ 12 * op.toNat ||| imm.toNat = 2 ^ 12 * op.toNat + imm.toNat :=
    (Nat.two_pow_add_eq_or_of_lt (by omega) _).symm
  simp only [commandWord, BitVec.toNat_append, BitVec.toNat_ofNat]
  simpa [Nat.shiftLeft_eq, Nat.mul_comm] using e

@[simp] theorem opField_commandWord (op : BitVec 4) (imm : Byte) : opField (commandWord op imm) = op := by
  have h1 := imm.isLt
  apply BitVec.eq_of_toNat_eq
  rw [opField_toNat, commandWord_toNat]; omega

@[simp] theorem rsvField_commandWord (op : BitVec 4) (imm : Byte) : rsvField (commandWord op imm) = 0#4 := by
  have h1 := imm.isLt
  apply BitVec.eq_of_toNat_eq
  rw [rsvField_toNat, commandWord_toNat]
  show _ = 0
  omega

@[simp] theorem immField_commandWord (op : BitVec 4) (imm : Byte) : immField (commandWord op imm) = imm := by
  have h1 := imm.isLt
  apply BitVec.eq_of_toNat_eq
  rw [immField_toNat, commandWord_toNat]; omega

/-- A word whose reserved field is zero is the word of its opcode and operand. -/
theorem eq_commandWord {w : Cmd} (h : rsvField w = 0#4) : w = commandWord (opField w) (immField w) := by
  have hw := w.isLt
  have hr : w.toNat / 256 % 16 = 0 := by rw [← rsvField_toNat, h]; rfl
  apply BitVec.eq_of_toNat_eq
  rw [commandWord_toNat, opField_toNat, immField_toNat]; omega

/-- The words of the encoder as numbers (R60). -/
theorem encode_toNat (i : Instr) :
    (encode i).toNat = match i with
      | .nop => 0x0000
      | .init => 0x1000
      | .absorb b => 0x2000 + b.toNat
      | .final => 0x3000
      | .rdword w => 0x4000 + w.toNat
      | .rdbyte j => 0x5000 + j.toNat
      | .rdhex p => 0x6000 + p.toNat := by
  cases i <;> simp only [encode, commandWord_toNat] <;> rfl

end Sys2Proof
end

