-- ==== Sys2Proof/Laws/Digest.lean ====
section
/-! SUPPORT. The blocks and the chaining value of a byte sequence, as it grows, and the block in the buffer as a block of the
message. -/

namespace Sys2Proof.Machine

/-! ### Blocks -/

theorem blocks_of_lt {p : List Byte} (h : p.length < 64) : blocks p = [] := by
  simp [blocks, Nat.div_eq_of_lt h]

theorem blocks_append {p q : List Byte} (h : p.length % 64 = 0) : blocks (p ++ q) = blocks p ++ blocks q := by
  have hp : p.length = 64 * (p.length / 64) := by omega
  have e : (p.length + q.length) / 64 = p.length / 64 + q.length / 64 := by omega
  simp only [blocks, List.length_append, e, List.range_add, List.map_append, List.map_map]
  congr 1
  · apply List.map_congr_left
    intro i hi
    have hi' : i < p.length / 64 := List.mem_range.1 hi
    rw [List.drop_append_of_le_length (by omega), List.take_append_of_le_length (by rw [List.length_drop]; omega)]
  · apply List.map_congr_left
    intro i _
    simp only [Function.comp_apply]
    rw [show 64 * (p.length / 64 + i) = p.length + 64 * i by omega, ← List.drop_drop, List.drop_left]

theorem blocks_of_length_64 {p : List Byte} (h : p.length = 64) : blocks p = [p] := by
  have e : List.range (p.length / 64) = [0] := by rw [h]; rfl
  simp only [blocks, e, List.map_cons, List.map_nil, Nat.mul_zero, List.drop_zero]
  rw [← h, List.take_length]

theorem chain_append {p q : List Byte} (h : p.length % 64 = 0) :
    chain (p ++ q) = (blocks q).foldl (fun h block => compress h (blockWord block)) (chain p) := by
  simp only [chain, blocks_append h, List.foldl_append]

/-- Less than a block more changes nothing. -/
theorem chain_append_short {p q : List Byte} (h : p.length % 64 = 0) (hq : q.length < 64) : chain (p ++ q) = chain p := by
  rw [chain_append h, blocks_of_lt hq, List.foldl_nil]

/-- One block more is one compression more. -/
theorem chain_append_block {p q : List Byte} (h : p.length % 64 = 0) (hq : q.length = 64) :
    chain (p ++ q) = compress (chain p) (blockWord q) := by
  rw [chain_append h, blocks_of_length_64 hq, List.foldl_cons, List.foldl_nil]

/-! ### The message as full blocks and a tail -/

/-- The bytes of the full blocks. -/
def headOf (m : List Byte) : List Byte := m.take (64 * (m.length / 64))

/-- The bytes after the last full block. -/
def tailOf (m : List Byte) : List Byte := m.drop (64 * (m.length / 64))

theorem head_tail (m : List Byte) : headOf m ++ tailOf m = m := List.take_append_drop _ _

theorem headOf_length (m : List Byte) : (headOf m).length = 64 * (m.length / 64) := by
  rw [headOf, List.length_take]; omega

theorem headOf_length_mod (m : List Byte) : (headOf m).length % 64 = 0 := by rw [headOf_length]; omega

theorem tailOf_length (m : List Byte) : (tailOf m).length = m.length % 64 := by
  rw [tailOf, List.length_drop]; omega

theorem chain_head (m : List Byte) : chain m = chain (headOf m) := by
  have h := chain_append_short (headOf_length_mod m) (q := tailOf m) (by rw [tailOf_length]; omega)
  rwa [head_tail] at h

theorem tailOf_getD (m : List Byte) (a : Nat) : (tailOf m).getD a 0#8 = m.getD (64 * (m.length / 64) + a) 0#8 := by
  simp [tailOf, List.getD_eq_getElem?_getD, List.getElem?_drop]

/-! ### The block in the buffer -/

theorem blockWord_toNat (block : List Byte) (k : BitVec 4) :
    (blockWord block k).toNat
      = (block.getD (4 * k.toNat + 0) 0#8).toNat
        + (block.getD (4 * k.toNat + 1) 0#8).toNat * 2 ^ 8
        + (block.getD (4 * k.toNat + 2) 0#8).toNat * 2 ^ 16
        + (block.getD (4 * k.toNat + 3) 0#8).toNat * 2 ^ 24 := by
  have below {a b c d : Nat} (ha : a < 2 ^ 8) (hb : b < 2 ^ 8) (hc : c < 2 ^ 8) (hd : d < 2 ^ 8) :
      a + b * 2 ^ 8 + c * 2 ^ 16 + d * 2 ^ 24 < 2 ^ 32 := by omega
  exact (BitVec.toNat_ofNat _ _).trans
    (Nat.mod_eq_of_lt (below (BitVec.isLt _) (BitVec.isLt _) (BitVec.isLt _) (BitVec.isLt _)))

/-- A buffer that holds a block byte for byte has its message words. -/
theorem messageWord_of_block {buf : Memory} {block : List Byte}
    (h : ∀ a : Addr, buf.read a = block.getD a.toNat 0#8) : ∀ k, messageWord buf k = blockWord block k := by
  intro k
  have hk := k.isLt
  have e (j : Nat) (hj : j < 4) : buf.read (BitVec.ofNat 6 (4 * k.toNat + j)) = block.getD (4 * k.toNat + j) 0#8 := by
    rw [h]; congr 1; rw [BitVec.toNat_ofNat]; omega
  apply BitVec.eq_of_toNat_eq
  rw [messageWord_toNat, blockWord_toNat, ← e 0 (by omega), ← e 1 (by omega), ← e 2 (by omega), ← e 3 (by omega)]
  simp only [Nat.add_zero]

/-- The block function on the buffer is the block function on the block it holds. -/
theorem compress_of_block {buf : Memory} {block : List Byte} (h : Words4)
    (hb : ∀ a : Addr, buf.read a = block.getD a.toNat 0#8) :
    compress h (messageWord buf) = compress h (blockWord block) := by
  rw [show messageWord buf = blockWord block from funext (messageWord_of_block hb)]

/-! ### The length field -/

theorem lengthField_append (m : List Byte) (b : Byte) : lengthField (m ++ [b]) = lengthField m + 8#64 := by
  apply BitVec.eq_of_toNat_eq
  simp only [lengthField, List.length_append, List.length_cons, List.length_nil, BitVec.toNat_ofNat, BitVec.toNat_add]
  omega

theorem le64_length (v : BitVec 64) : (le64 v).length = 8 := by simp [le64]

theorem le64_getD (v : BitVec 64) {j : Nat} (h : j < 8) : (le64 v).getD j 0#8 = byteAt v j := by
  simp [le64, List.getD_eq_getElem?_getD, h]

/-! ### The padded message (R64) -/

theorem zeroCount_eq (n : Nat) : zeroCount n = (119 - n % 64) % 64 := by
  unfold zeroCount; omega

theorem paddedMessage_length (m : List Byte) : (paddedMessage m).length = m.length + 1 + zeroCount m.length + 8 := by
  simp [paddedMessage, le64_length]; omega

end Sys2Proof.Machine
end

