-- ==== Sys2Proof/Laws/PerInstr.lean ====
section
/-! SUPPORT. A property of every instruction as syntax, one lemma per constructor of `Instr`: its encoding lies in the opcode-table
row of its mnemonic and leaves the reserved field zero. -/

open Sys2Proof

/-- R53, R54, R56: a well-formed instruction is encoded in the row of its own mnemonic, with the `rsv` field zero. -/
def Sys2Proof.Laws.EncodesInItsRow.Statement (i : Instr) : Prop :=
  i.wf = true → rsvField (encode i) = 0#4 ∧ ∃ row ∈ opcodeTable, row.mnemonic = i.mnemonic ∧ row.matches (encode i) = true

/-- A word with a zero `rsv` field that matches a row of the table lies in that row. -/
theorem Sys2Proof.Laws.EncodesInItsRow.of_row (i : Instr) (row : OpcodeRow) (hrow : row ∈ opcodeTable)
    (hm : row.mnemonic = i.mnemonic) (h : i.wf = true → rsvField (encode i) = 0#4 ∧ row.matches (encode i) = true) :
    Sys2Proof.Laws.EncodesInItsRow.Statement i :=
  fun hw => ⟨(h hw).1, row, hrow, hm, (h hw).2⟩

theorem Sys2Proof.Laws.EncodesInItsRow.nop : Sys2Proof.Laws.EncodesInItsRow.Statement .nop :=
  Sys2Proof.Laws.EncodesInItsRow.of_row _ ⟨"NOP", 0x0000#16, 0xFFFF#16⟩ (by simp [opcodeTable]) rfl (by decide)

theorem Sys2Proof.Laws.EncodesInItsRow.init : Sys2Proof.Laws.EncodesInItsRow.Statement .init :=
  Sys2Proof.Laws.EncodesInItsRow.of_row _ ⟨"INIT", 0x1000#16, 0xFFFF#16⟩ (by simp [opcodeTable]) rfl (by decide)

theorem Sys2Proof.Laws.EncodesInItsRow.absorb (b : Byte) : Sys2Proof.Laws.EncodesInItsRow.Statement (.absorb b) :=
  Sys2Proof.Laws.EncodesInItsRow.of_row _ ⟨"ABSORB", 0x2000#16, 0xFF00#16⟩ (by simp [opcodeTable]) rfl
    (by revert b; decide)

theorem Sys2Proof.Laws.EncodesInItsRow.final : Sys2Proof.Laws.EncodesInItsRow.Statement .final :=
  Sys2Proof.Laws.EncodesInItsRow.of_row _ ⟨"FINAL", 0x3000#16, 0xFFFF#16⟩ (by simp [opcodeTable]) rfl (by decide)

theorem Sys2Proof.Laws.EncodesInItsRow.rdword (w : Byte) : Sys2Proof.Laws.EncodesInItsRow.Statement (.rdword w) :=
  Sys2Proof.Laws.EncodesInItsRow.of_row _ ⟨"RDWORD", 0x4000#16, 0xFFFC#16⟩ (by simp [opcodeTable]) rfl
    (by revert w; decide)

theorem Sys2Proof.Laws.EncodesInItsRow.rdbyte (j : Byte) : Sys2Proof.Laws.EncodesInItsRow.Statement (.rdbyte j) :=
  Sys2Proof.Laws.EncodesInItsRow.of_row _ ⟨"RDBYTE", 0x5000#16, 0xFFF0#16⟩ (by simp [opcodeTable]) rfl
    (by revert j; decide)

theorem Sys2Proof.Laws.EncodesInItsRow.rdhex (p : Byte) : Sys2Proof.Laws.EncodesInItsRow.Statement (.rdhex p) :=
  Sys2Proof.Laws.EncodesInItsRow.of_row _ ⟨"RDHEX", 0x6000#16, 0xFFE0#16⟩ (by simp [opcodeTable]) rfl
    (by revert p; decide)
end

