-- ==== Sys2Proof/Laws/Platform.lean ====
section
/-! SUPPORT. What a step of a platform's engine can do, and the host's commands that are left. -/

namespace Sys2Proof.Machine

/-- Everything a step of engine `i` can do: nothing where there is no such engine, else a step of that engine in its place. -/
theorem stepEngine_cases {p q : Platform} {i : Nat} (h : p.stepEngine i = .next q) :
    (p.engines[i]? = none ∧ q = p) ∨
      ∃ s t, p.engines[i]? = some s ∧ step s = .next t ∧ q = ⟨p.engines.set i t⟩ := by
  unfold Platform.stepEngine at h
  cases hs : p.engines[i]? with
  | none => rw [hs] at h; cases h; exact .inl ⟨rfl, rfl⟩
  | some s =>
    simp only [hs] at h
    cases ht : step s with
    | next t => rw [ht] at h; cases h; exact .inr ⟨s, t, rfl, ht, rfl⟩
    | fault r => rw [ht] at h; cases h
    | refused r => rw [ht] at h; cases h

@[simp] theorem isCommand_command (w : Cmd) : (HostMove.command w).isCommand = true := rfl
@[simp] theorem isCommand_idle : HostMove.idle.isCommand = false := rfl
@[simp] theorem isCommand_reset : HostMove.reset.isCommand = false := rfl

/-- No command is left among the host's moves. -/
theorem any_isCommand_eq_false {ms : List HostMove} : ms.any HostMove.isCommand = false ↔ ∀ w, .command w ∉ ms := by
  rw [List.any_eq_false]
  refine ⟨fun h w hw => by simpa using h _ hw, fun h mv hm => ?_⟩
  cases mv with
  | command w => exact absurd hm (h w)
  | idle => simp
  | reset => simp

end Sys2Proof.Machine
end

