-- ==== Sys2Proof/Tests/Slice0.lean ====
section
/-! SUPPORT. Tests of single steps and of decoding, with the expected values of spec/95_test_vectors.md and of the rules' worked
examples, and a witness for the hypotheses of each obligation that has some. -/

namespace Sys2Proof.Tests

open Sys2Proof Sys2Proof.Machine

/-! ### Helpers -/

/-- The state after the next step, if the step has one. -/
def after (s : State) : Option State :=
  match step s with
  | .next t => some t
  | .fault _ => none
  | .refused _ => none

/-- The host presents one command word. -/
def given (s : State) (w : Cmd) : State := { s with input := [.command w] }

/-- IDLE with `n` bytes in the buffer, each 0x78, and L to match. -/
def idleWith (n : Nat) : State :=
  { State.reset with buf := Memory.writeRange [] (fun _ => 0x78#8) 0 n, fill := BitVec.ofNat 6 n, L := BitVec.ofNat 64 (8 * n) }

/-- DONE after `HASH ""` (spec/95 section 1.1, K1). -/
def doneEmpty : State :=
  { State.reset with H := ⟨0xD98C1DD4#32, 0x04B2008F#32, 0x980980E9#32, 0x7E42F8EC#32⟩, fsm := .done }

/-- FAULT with ECODE 1. -/
def faulted : State := { State.reset with fsm := .fault, ecode := 1#4 }

/-- BUSY with the block of the empty message (spec/95 section 2.1), before round `r`. -/
def busyEmpty (b : Block) (r : BitVec 6) : State :=
  { State.reset with buf := [(0, 0x80#8)], W := State.reset.H, fsm := .busy b, rnd := r }

/-! ### Well-formedness refuses the ill-formed terms (R54, R112) -/

theorem test_wf_rdword : (Instr.rdword 3#8).wf = true ∧ (Instr.rdword 4#8).wf = false := by decide
theorem test_wf_rdbyte : (Instr.rdbyte 15#8).wf = true ∧ (Instr.rdbyte 16#8).wf = false := by decide
theorem test_wf_rdhex : (Instr.rdhex 31#8).wf = true ∧ (Instr.rdhex 32#8).wf = false := by decide

/-! ### Decoding, words written out from the patterns of R53 and R54 (op, rsv, imm8) -/

theorem test_decode_nop : decode (0b0000#4 ++ 0b0000#4 ++ 0b00000000#8) = .command .nop := by decide
theorem test_decode_init : decode (0b0001#4 ++ 0b0000#4 ++ 0b00000000#8) = .command .init := by decide
theorem test_decode_absorb : decode (0b0010#4 ++ 0b0000#4 ++ 0b11000101#8) = .command (.absorb 0xC5#8) := by decide
theorem test_decode_final : decode (0b0011#4 ++ 0b0000#4 ++ 0b00000000#8) = .command .final := by decide
theorem test_decode_rdword : decode (0b0100#4 ++ 0b0000#4 ++ 0b00000010#8) = .command (.rdword 2#8) := by decide
theorem test_decode_rdbyte : decode (0b0101#4 ++ 0b0000#4 ++ 0b00001011#8) = .command (.rdbyte 11#8) := by decide
theorem test_decode_rdhex : decode (0b0110#4 ++ 0b0000#4 ++ 0b00010110#8) = .command (.rdhex 22#8) := by decide

/-- R111, and R116's order: `rsv` before the operand's range. Words of spec/95 section 2.5. -/
theorem test_decode_illegal :
    [0x7000#16, 0xFFFF#16, 0x2100#16, 0x1001#16, 0x0001#16, 0x3080#16, 0x6120#16].all
      (fun w => decode w == .error .illegalCommand) = true := by decide

/-- R112. Words of spec/95 section 2.5. -/
theorem test_decode_range :
    [0x4004#16, 0x5010#16, 0x6020#16].all (fun w => decode w == .error .operandRange) = true := by decide

/-- The host's numbering of a table word: the command word itself. -/
theorem test_decodeTableWord :
    decodeTableWord 16 0x601F = some (.rdhex 31#8) ∧ decodeTableWord 16 0x7000 = none := by decide

/-- R60: lines of assembly. -/
theorem test_assemble :
    assemble (.rdword .nameC) = some 0x4002#16 ∧ assemble (.absorb (.quoted 0x61#8)) = some 0x2061#16 ∧
    assemble (.absorb (.number 256)) = none ∧ assemble (.rdhex 31) = some 0x601F#16 := by decide

/-! ### One step of each command (spec/95 sections 2.1, 2.2, 2.4) -/

theorem test_nop : after (given (idleWith 3) 0x0000#16) = some (idleWith 3) := by decide

/-- `withFetchWord` presents the word, and the next step runs it. -/
theorem test_nop_fetched : after ((idleWith 3).withFetchWord 16 0x0000) = some (idleWith 3) := by decide

theorem test_init_from_done :
    (after (given { doneEmpty with rdata := 0x72#32 } 0x1000#16)).map (fun t => (t.H, t.L, t.status, t.rdata)) =
      some (⟨0x67452301#32, 0xEFCDAB89#32, 0x98BADCFE#32, 0x10325476#32⟩, 0#64, 0#32, 0x72#32) := by decide

theorem test_init_mid_message :
    (after (given (idleWith 1) 0x1000#16)).map (fun t => (t.fill, t.L, t.fsm)) = some (0#6, 0#64, .idle) := by decide

/-- First byte, and the wrap of L. -/
theorem test_absorb_byte :
    (after (given State.reset 0x2061#16)).map (fun t => (t.buf.read 0#6, t.fill, t.L, t.status)) =
      some (0x61#8, 1#6, 8#64, 0x00000100#32) ∧
    (after (given { State.reset with L := 0xFFFFFFFFFFFFFFF8#64 } 0x2061#16)).map (fun t => (t.L, t.status)) =
      some (0#64, 0x00000100#32) := by decide

/-- The 64th byte. -/
theorem test_absorb_completes_block :
    (after (given (idleWith 63) 0x2078#16)).map (fun t => (t.buf.read 63#6, t.fill, t.L, decide (t.W = t.H), t.status)) =
      some (0x78#8, 0#6, 512#64, true, 0x00010001#32) := by decide

/-- The block of "abc" (spec/95 section 2.1): its message words, and COMP_LAST. -/
theorem test_final_one_block :
    (after (given { State.reset with buf := [(0, 0x61#8), (1, 0x62#8), (2, 0x63#8)], fill := 3#6, L := 24#64 } 0x3000#16)).map
        (fun t => (messageWord t.buf 0#4, messageWord t.buf 1#4, messageWord t.buf 14#4, messageWord t.buf 15#4, t.status)) =
      some (0x80636261#32, 0#32, 0x18#32, 0#32, 0x00030001#32) := by decide

/-- The two sides of R70's bound: 55 bytes leave the length in the block, 56 do not. -/
theorem test_final_bound :
    (after (given (idleWith 55) 0x3000#16)).map (fun t => (t.buf.read 55#6, t.buf.read 56#6, t.buf.read 57#6, t.status)) =
      some (0x80#8, 0xB8#8, 0x01#8, 0x00030001#32) ∧
    (after (given (idleWith 56) 0x3000#16)).map (fun t => (t.buf.read 55#6, t.buf.read 56#6, t.buf.read 57#6, t.status)) =
      some (0x78#8, 0x80#8, 0x00#8, 0x00020001#32) := by decide

theorem test_rdword : (after (given doneEmpty 0x4000#16)).map State.rdata = some 0xD98C1DD4#32 ∧
    (after (given doneEmpty 0x4003#16)).map State.rdata = some 0x7E42F8EC#32 := by decide

theorem test_rdbyte :
    [0x5000#16, 0x5003#16, 0x5004#16, 0x500F#16].map (fun w => (after (given doneEmpty w)).map State.rdata) =
      [some 0xD4#32, some 0xD9#32, some 0x8F#32, some 0x7E#32] := by decide

theorem test_rdhex :
    [0x6000#16, 0x6001#16, 0x6002#16, 0x601E#16, 0x601F#16].map (fun w => (after (given doneEmpty w)).map State.rdata) =
      [some 0x64#32, some 0x34#32, some 0x31#32, some 0x37#32, some 0x65#32] := by decide

/-! ### Errors (spec/95 section 2.5): STATUS after the command, everything else kept (R117) -/

theorem test_error_status_idle :
    [0x7000#16, 0x2100#16, 0x1001#16, 0x5010#16, 0x4000#16].map (fun w => (after (given State.reset w)).map State.status) =
      [some 0x00050014#32, some 0x00050014#32, some 0x00050014#32, some 0x00050024#32, some 0x00050044#32] := by decide

theorem test_error_keeps_fill : (after (given (idleWith 1) 0x6000#16)).map State.status = some 0x00050144#32 := by decide

theorem test_error_after_final :
    [0x2061#16, 0x3000#16, 0x2100#16].map (fun w => (after (given doneEmpty w)).map State.status) =
      [some 0x00050034#32, some 0x00050034#32, some 0x00050014#32] := by decide

theorem test_fault_discards : after (given faulted 0x1000#16) = some faulted ∧
    after (given faulted 0xFFFF#16) = some faulted := by decide

/-! ### The engine (spec/95 sections 1.2 and 2.3) -/

theorem test_tRom : tRom 0#6 = 0xD76AA478#32 ∧ tRom 15#6 = 0x49B40821#32 ∧ tRom 31#6 = 0x8D2A4C8A#32 ∧
    tRom 47#6 = 0xC4AC5665#32 ∧ tRom 63#6 = 0xEB86D391#32 := by decide

theorem test_aux : auxF 0xEFCDAB89#32 0x98BADCFE#32 0x10325476#32 = 0x98BADCFE#32 ∧
    auxG 0xEFCDAB89#32 0x98BADCFE#32 0x10325476#32 = 0x88888888#32 ∧
    auxHf 0xEFCDAB89#32 0x98BADCFE#32 0x10325476#32 = 0x67452301#32 ∧
    auxI 0xEFCDAB89#32 0x98BADCFE#32 0x10325476#32 = 0x77777777#32 := by decide

theorem test_rotl32 : rotl32 0x80000000#32 1#5 = 0x00000001#32 ∧ rotl32 0x12345678#32 4#5 = 0x23456781#32 ∧
    rotl32 0x12345678#32 0#5 = 0x12345678#32 ∧ rotl32 0x00000001#32 31#5 = 0x80000000#32 ∧
    rotl32 0xF0000000#32 23#5 = 0x00780000#32 := by decide

theorem test_hexChar : hexChar 0#4 = 0x30#8 ∧ hexChar 9#4 = 0x39#8 ∧ hexChar 10#4 = 0x61#8 ∧ hexChar 15#4 = 0x66#8 := by decide

/-- Round 0 of the empty message's block (R95's worked example). -/
theorem test_round_0 :
    (after (busyEmpty .compLast 0#6)).map (fun t => (t.W, t.rnd)) =
      some (⟨0x10325476#32, 0xA5202774#32, 0xEFCDAB89#32, 0x98BADCFE#32⟩, 1#6) := by decide

/-- Round 63 of the empty message's block, from the trace's row 62, with the accumulation: DONE with its digest. -/
theorem test_round_63 :
    (after { busyEmpty .compLast 63#6 with W := ⟨0x30130182#32, 0xFF4EA3EB#32, 0x6E10A476#32, 0x7246FAD3#32⟩ }).map
        (fun t => (t.H, t.W, t.status)) =
      some (⟨0xD98C1DD4#32, 0x04B2008F#32, 0x980980E9#32, 0x7E42F8EC#32⟩,
        ⟨0x7246FAD3#32, 0x14E45506#32, 0xFF4EA3EB#32, 0x6E10A476#32⟩, 0x00040002#32) := by decide

/-- The second padding block of 56 bytes (spec/95 section 2.1): 56 zeros, then 0xC0 0x01. -/
theorem test_length_block :
    (after { busyEmpty .compPad 63#6 with L := 448#64 }).map
        (fun t => (messageWord t.buf 0#4, messageWord t.buf 13#4, messageWord t.buf 14#4, messageWord t.buf 15#4, t.status)) =
      some (0#32, 0#32, 0x1C0#32, 0#32, 0x00030001#32) := by decide

theorem test_status_mid_compression : (busyEmpty .comp 5#6).status = 0x05010001#32 := by decide

/-- A command presented while BUSY is held (R131). -/
theorem test_busy_holds : (after (given (busyEmpty .comp 5#6) 0x1000#16)).map (fun t => (t.input, t.rnd)) =
    some ([.command 0x1000#16], 6#6) := by decide

/-- R127, R128: reset leaves FAULT and takes no command. -/
theorem test_reset :
    (after { faulted with rdata := 5#32, input := [.reset, .command 0x2061#16] }).map (fun t => (t.status, t.rdata, t.input)) =
      some (0#32, 0#32, [.command 0x2061#16]) := by decide

/-! ### Witnesses: a state and operands that meet the hypotheses of each obligation, clause by clause, at the ends of their
ranges -/

/-- Fewer than 64 bytes are absorbed as they lie in the buffer. -/
theorem idleWith_absorbed (n : Nat) (h : n < 64) : (idleWith n).Absorbed (List.replicate n 0x78#8) where
  idle := rfl
  rnd_zero := rfl
  len := by simp [idleWith, lengthField]
  fill_eq := by simp [idleWith, h, Nat.mod_eq_of_lt]
  chained := by simp [idleWith, State.reset, chain, blocks_of_lt, h]
  tail := by
    intro a ha
    rw [List.length_replicate, Nat.mod_eq_of_lt h] at ha
    have h0 : n / 64 = 0 := by omega
    simp [idleWith, Memory.read_writeRange, List.getD, h0, ha, h.le, Nat.mod_eq_of_lt (ha.trans h)]

/-- DecodeVerdictOfEveryWord: legal words at the top of each range. -/
theorem witness_DecodeVerdictOfEveryWord :
    [0x0000#16, 0x1000#16, 0x20FF#16, 0x3000#16, 0x4003#16, 0x500F#16, 0x601F#16].all (fun w =>
      decide (¬ (7 ≤ w.toNat / 4096 ∨ w.toNat / 256 % 16 ≠ 0 ∨
        ((w.toNat / 4096 = 0 ∨ w.toNat / 4096 = 1 ∨ w.toNat / 4096 = 3) ∧ w.toNat % 256 ≠ 0))) &&
      decide (¬ ((w.toNat / 4096 = 4 ∧ 3 < w.toNat % 256) ∨ (w.toNat / 4096 = 5 ∧ 15 < w.toNat % 256) ∨
        (w.toNat / 4096 = 6 ∧ 31 < w.toNat % 256)))) = true ∧
    (given doneEmpty 0x6120#16).fsm = .done ∧ decode 0x6120#16 = .error .illegalCommand := by decide

theorem witness_DecodeAgreesWithOpcodeTable :
    (⟨"RDWORD", 0x4000#16, 0xFFFC#16⟩ : OpcodeRow) ∈ opcodeTable ∧
      OpcodeRow.matches ⟨"RDWORD", 0x4000#16, 0xFFFC#16⟩ 0x4003#16 = true := by decide

theorem witness_StepRunsDecodedCommand :
    (given (idleWith 3) 0x2061#16).isBusy = false ∧ (given (idleWith 3) 0x2061#16).input = .command 0x2061#16 :: [] ∧
    decode 0x2061#16 = .command (.absorb 0x61#8) ∧ decodeTableWord 16 0x2061 = some (.absorb 0x61#8) := by decide

theorem witness_BusyHoldsCommandsAndTakesRounds :
    (given (busyEmpty .compLast 63#6) 0x4000#16).fsm = .busy .compLast ∧
    (given (busyEmpty .compLast 63#6) 0x4000#16).input = .command 0x4000#16 :: [] ∧
    ({ busyEmpty .comp 0#6 with input := [.idle] } : State).input = .idle :: [] ∧
    (busyEmpty .compPad 63#6).fsm = .busy .compPad ∧ (busyEmpty .compPad 63#6).input = [] := by decide

theorem witness_QuietEngineHoldsItsState :
    doneEmpty.isBusy = false ∧ doneEmpty.input = [] ∧ doneEmpty.runEnd = some .digest ∧
    ({ doneEmpty with input := [.idle] } : State).input = .idle :: [] ∧ faulted.runEnd = some .failed ∧
    ({ doneEmpty with input := [.idle] } : State).runEnd = some .digest ∧ (idleWith 5).runEnd = some .noDigest := by decide

/-- RunEndsByState: idle edges or a reset left after the last command, and a command left. -/
theorem witness_RunEndsByState :
    ({ doneEmpty with input := [.idle, .reset] } : State).runEnd = some .digest ∧
    (given doneEmpty 0x4000#16).runEnd = none ∧ (busyEmpty .compLast 63#6).runEnd = none := by decide

theorem witness_QuietEngineHoldsItsState_no_reset : ¬ ({ doneEmpty with input := [.idle] } : State).AtReset := by
  rintro ⟨_, h⟩
  cases h

theorem witness_ResetStepFromAnyState :
    ({ busyEmpty .compPad 40#6 with input := [.reset, .idle] } : State).input = .reset :: [.idle] ∧
    (⟨true, true, 0x2000#16⟩ : Pins).rst = true ∧ (⟨true, false, 0#16⟩ : Pins).rst = true := by decide

theorem witness_IllegalCommandFaults :
    [given (idleWith 3) 0x7000#16, given doneEmpty 0x2100#16, given (idleWith 63) 0x3001#16].all (fun s =>
      decide (s.fsm = .idle ∨ s.fsm = .done) && s.input.any (fun mv =>
        match mv with
        | .command w => decide (7 ≤ w.toNat / 4096 ∨ w.toNat / 256 % 16 ≠ 0 ∨
            ((w.toNat / 4096 = 0 ∨ w.toNat / 4096 = 1 ∨ w.toNat / 4096 = 3) ∧ w.toNat % 256 ≠ 0))
        | .idle => false
        | .reset => false)) = true := by decide

theorem witness_OperandRangeFaults :
    (given (idleWith 3) 0x4004#16).fsm = .idle ∧ (given doneEmpty 0x6020#16).fsm = .done ∧
    (0x4004#16).toNat / 256 % 16 = 0 ∧ (0x4004#16).toNat / 4096 = 4 ∧ 3 < (0x4004#16).toNat % 256 ∧
    (0x5010#16).toNat / 256 % 16 = 0 ∧ (0x5010#16).toNat / 4096 = 5 ∧ 15 < (0x5010#16).toNat % 256 ∧
    (0x6020#16).toNat / 256 % 16 = 0 ∧ (0x6020#16).toNat / 4096 = 6 ∧ 31 < (0x6020#16).toNat % 256 ∧
    3 < (4#8).toNat ∧ 15 < (16#8).toNat ∧ 31 < (32#8).toNat := by decide

theorem witness_SequenceAfterFinalFaults : doneEmpty.fsm = .done := rfl

theorem witness_ReadBeforeDoneFaults :
    (idleWith 55).fsm = .idle ∧ (3#8).toNat ≤ 3 ∧ (15#8).toNat ≤ 15 ∧ (31#8).toNat ≤ 31 := by decide

theorem witness_BusyEndsWithin128Steps :
    (busyEmpty .compPad 0#6).fsm = .busy .compPad ∧ ¬ (busyEmpty .compPad 0#6).AtReset :=
  ⟨rfl, by rintro ⟨_, h⟩; cases h⟩

theorem witness_ErrorsArePrecise :
    ∃ s t, step s = .next t ∧ s.fsm ≠ .fault ∧ t.fsm = .fault :=
  ⟨given (idleWith 1) 0x6000#16, _, rfl, by decide, by decide⟩

theorem witness_FaultDiscardsEveryCommand :
    (given faulted 0x7000#16).fsm = .fault ∧ (given faulted 0x7000#16).input = .command 0x7000#16 :: [] := by decide

theorem witness_OnlyResetLeavesFault :
    (∃ s t, step s = .next t ∧ s.fsm = .fault ∧ t.fsm ≠ .fault ∧ t.ecode ≠ s.ecode) ∧
    ∃ s t, step s = .next t ∧ s.fsm ≠ .fault ∧ t.fsm = .fault :=
  ⟨⟨{ faulted with input := [.reset] }, resetAction faulted, rfl, rfl, by simp [resetAction], by
      simp [resetAction, faulted]⟩,
    ⟨given doneEmpty 0x3000#16, _, rfl, by decide, by decide⟩⟩

theorem witness_InitStartsMessage : (idleWith 63).fsm = .idle ∧ doneEmpty.fsm = .done := by decide

/-- BufferReadAfterWrite: two canonical buffers written in different orders read the same. -/
theorem witness_BufferReadAfterWrite :
    ((Memory.write [] 63#6 5#8).write 0#6 7#8).wf = true ∧ ((Memory.write [] 0#6 7#8).write 63#6 5#8).wf = true ∧
    ∀ a : Addr, ((Memory.write [] 63#6 5#8).write 0#6 7#8).read a = ((Memory.write [] 0#6 7#8).write 63#6 5#8).read a := by
  decide

theorem witness_MessageWordsAreLittleEndian : ∃ i : Nat, i < 8 ∧ ((0x80#8).getLsbD i) = true := ⟨7, by decide, by decide⟩

theorem witness_AbsorbStoresByte :
    (idleWith 0).fsm = .idle ∧ (idleWith 62).fill.toNat < 63 ∧ (idleWith 63).fsm = .idle ∧ (idleWith 63).fill.toNat = 63 := by
  decide

theorem witness_FinalPadsBlock :
    (idleWith 55).fsm = .idle ∧ (idleWith 55).fill.toNat ≤ 55 ∧ (idleWith 56).fsm = .idle ∧ ¬ (idleWith 56).fill.toNat ≤ 55 ∧
    (idleWith 0).fsm = .idle ∧ (idleWith 63).fsm = .idle := by decide

theorem witness_NopInitFrame :
    ∃ (i : Instr) (s t : State), (i = .nop ∨ i = .init) ∧ exec i s = .next t ∧ t ≠ s :=
  ⟨.init, idleWith 5, _, .inr rfl, rfl, by decide⟩

theorem witness_AbsorbFinalFrame :
    (∃ (i : Instr) (s t : State), ((∃ b, i = .absorb b) ∨ i = .final) ∧ exec i s = .next t ∧ t.isBusy = true ∧ i = .final) ∧
    (∃ (i : Instr) (s t : State), ((∃ b, i = .absorb b) ∨ i = .final) ∧ exec i s = .next t ∧ t.isBusy = false ∧
      t.isErr = false ∧ i ≠ .final ∧ ∃ a : Addr, a.toNat < s.fill.toNat) ∧
    ∃ (i : Instr) (s t : State), ((∃ b, i = .absorb b) ∨ i = .final) ∧ exec i s = .next t ∧ s.fsm ≠ .idle :=
  ⟨⟨.final, idleWith 5, _, .inr rfl, rfl, by decide, rfl⟩,
    ⟨.absorb 1#8, idleWith 5, _, .inl ⟨1#8, rfl⟩, rfl, by decide, by decide, by decide, 4#6, by decide⟩,
    ⟨.absorb 1#8, doneEmpty, _, .inl ⟨1#8, rfl⟩, rfl, by decide⟩⟩

theorem witness_ReadFrame :
    (∃ (i : Instr) (s t : State), (∃ x, i = .rdword x ∨ i = .rdbyte x ∨ i = .rdhex x) ∧ exec i s = .next t ∧
      t.rdata ≠ s.rdata) ∧
    ∃ (i : Instr) (s t : State), (∃ x, i = .rdword x ∨ i = .rdbyte x ∨ i = .rdhex x) ∧ exec i s = .next t ∧
      t.fsm ≠ s.fsm :=
  ⟨⟨.rdbyte 15#8, doneEmpty, _, ⟨15#8, .inr (.inl rfl)⟩, rfl, by decide⟩,
    ⟨.rdhex 32#8, doneEmpty, _, ⟨32#8, .inr (.inr rfl)⟩, rfl, by decide⟩⟩

theorem witness_RdwordReadsWord : doneEmpty.fsm = .done := rfl

theorem witness_RdbyteReadsByte : doneEmpty.fsm = .done ∧ (15#8).toNat ≤ 15 ∧ (0#8).toNat ≤ 15 := by decide

theorem witness_RdhexReadsCharacter : doneEmpty.fsm = .done ∧ (31#8).toNat ≤ 31 ∧ (0#8).toNat ≤ 31 := by decide

theorem witness_ReadsAreIdempotent :
    doneEmpty.fsm = .done ∧ (Instr.rdword 3#8).wf = true ∧ (Instr.rdbyte 15#8).wf = true ∧ (Instr.rdhex 31#8).wf = true := by
  decide

theorem witness_AuxiliaryFunctionsBitwise : (31 : Nat) < 32 := by decide

theorem witness_RotatorMovesEveryBit : (31 : Nat) < 32 := by decide

theorem witness_ShiftAndIndexSchedule : (63#6).toNat % 16 = 15 ∧ (63#6).toNat = 63 := by decide

theorem witness_RoundStepComputesRound :
    (busyEmpty .comp 0#6).rnd.toNat < 63 ∧ (busyEmpty .compLast 62#6).rnd.toNat < 63 ∧ (63#6).toNat = 63 := by decide

theorem witness_LastRoundEndsBlock : (busyEmpty .compPad 63#6).rnd = 63#6 := rfl

theorem witness_SixtyFourStepsCompressBlock :
    (given (busyEmpty .compPad 0#6) 0x4000#16).fsm = .busy .compPad ∧ (given (busyEmpty .compPad 0#6) 0x4000#16).rnd = 0#6 ∧
    (given (busyEmpty .compPad 0#6) 0x4000#16).W = (given (busyEmpty .compPad 0#6) 0x4000#16).H ∧
    noReset (given (busyEmpty .compPad 0#6) 0x4000#16).input = true := by decide

theorem witness_RdataHoldsLastRead :
    (∃ s t, step s = .next t ∧ t.rdata ≠ s.rdata ∧ s.fsm = .done) ∧
    ∃ s t, step s = .next t ∧ t.rdata ≠ s.rdata ∧ s.fsm = .fault :=
  ⟨⟨given doneEmpty 0x4000#16, _, rfl, by decide, rfl⟩,
    ⟨{ faulted with rdata := 1#32, input := [.reset] }, resetAction { faulted with rdata := 1#32 }, rfl, by
      simp [resetAction], rfl⟩⟩

/-- OnlyTheAccessTableWrites: a step that changes H, W, buf, L, fill, rnd, state, ECODE and RDATA, each somewhere. -/
theorem witness_OnlyTheAccessTableWrites :
    (∃ s t, step s = .next t ∧ t.H ≠ s.H ∧ t.W ≠ s.W ∧ t.rnd ≠ s.rnd) ∧
    (∃ s t, step s = .next t ∧ (∃ a : Addr, t.buf.read a ≠ s.buf.read a) ∧ t.L ≠ s.L ∧ t.fill ≠ s.fill) ∧
    (∃ s t, step s = .next t ∧ t.ecode ≠ s.ecode ∧ t.fsm ≠ s.fsm) ∧ ∃ s t, step s = .next t ∧ t.rdata ≠ s.rdata :=
  ⟨⟨busyEmpty .comp 63#6, _, rfl, by decide, by decide, by decide⟩,
    ⟨given (idleWith 62) 0x2061#16, _, rfl, ⟨62#6, by decide⟩, by decide, by decide⟩,
    ⟨given doneEmpty 0x2061#16, _, rfl, by decide, by decide⟩, ⟨given doneEmpty 0x4000#16, _, rfl, by decide⟩⟩

theorem witness_DigestStaysUntilInitOrReset :
    ∃ s t, step s = .next t ∧ s.fsm = .done ∧ ¬ s.AtReset ∧ ¬ s.Accepts .init :=
  ⟨given doneEmpty 0x4000#16, _, rfl, rfl, (by rintro ⟨_, h⟩; cases h), by
    rintro ⟨-, -, w, r, h, hd⟩
    cases h
    exact absurd hd (by decide)⟩

theorem witness_EveryStepKeepsInvariant : ∃ s t : State, s.Inv ∧ step s = .next t ∧ t.fsm ≠ s.fsm :=
  ⟨given (idleWith 63) 0x2078#16, _, ⟨by decide, by decide, by decide, by decide, by decide, by decide⟩, rfl, by decide⟩

/-- UnspecifiedValuesNeverMatter: two engines that differ in W, in an unwritten buffer byte and in the model's own fields. -/
theorem witness_UnspecifiedValuesNeverMatter :
    ∃ s s' t : State, s.Agree s' ∧ s ≠ s' ∧ step s = .next t ∧ t.isBusy = true :=
  ⟨given (idleWith 63) 0x2078#16,
    { given (idleWith 63) 0x2078#16 with
      W := ⟨1#32, 2#32, 3#32, 4#32⟩, buf := (idleWith 63).buf.write 63#6 9#8, unit := 1, draws := 7 }, _,
    ⟨rfl, rfl, rfl, rfl, rfl, rfl, rfl, rfl, by decide, by decide⟩, by decide, rfl, by decide⟩

theorem witness_ChainingValueIsNotObservable :
    ∃ s s' t : State, s.SameView s' ∧ s.H ≠ s'.H ∧ s.fsm ≠ .done ∧ step s = .next t :=
  ⟨given (idleWith 5) 0x4000#16, { given (idleWith 5) 0x4000#16 with H := ⟨1#32, 2#32, 3#32, 4#32⟩, L := 8#64 }, _,
    ⟨rfl, rfl, rfl, rfl, rfl, rfl⟩, by decide, by decide, rfl⟩

theorem witness_MessageStartsEmpty :
    (∃ s t : State, s.AtReset ∧ step s = .next t ∧ s.fsm = .fault) ∧ doneEmpty.fsm = .done ∧ (idleWith 1).fsm = .idle :=
  ⟨⟨{ faulted with input := [.reset] }, resetAction faulted, ⟨[], rfl⟩, rfl, rfl⟩, rfl, rfl⟩

theorem witness_AbsorbExtendsMessage :
    (∃ m, (idleWith 62).Absorbed m ∧ noReset (idleWith 62).input = true ∧ m.length % 64 < 63) ∧
    ∃ m, (idleWith 63).Absorbed m ∧ noReset (idleWith 63).input = true ∧ m.length % 64 = 63 :=
  ⟨⟨_, idleWith_absorbed 62 (by decide), rfl, by decide⟩,
    ⟨_, idleWith_absorbed 63 (by decide), rfl, by decide⟩⟩

theorem witness_FinalYieldsDigestState :
    (∃ m, (idleWith 55).Absorbed m ∧ noReset (idleWith 55).input = true ∧ m.length % 64 ≤ 55) ∧
    ∃ m, (idleWith 56).Absorbed m ∧ noReset (idleWith 56).input = true ∧ ¬ m.length % 64 ≤ 55 :=
  ⟨⟨_, idleWith_absorbed 55 (by decide), rfl, by decide⟩,
    ⟨_, idleWith_absorbed 56 (by decide), rfl, by decide⟩⟩

/-- StreamEquivalence: "a" with idle edges between and a read after; and INIT in the middle of another message. -/
theorem witness_StreamEquivalence :
    (∃ (s : State) (m : List Byte) (rest : List HostMove), noReset rest = true ∧ s.Absorbed [] ∧
      issued s.input = present (m.map .absorb ++ [.final]) ++ issued rest ∧ rest ≠ []) ∧
    ∃ (s : State) (m : List Byte) (rest : List HostMove), noReset rest = true ∧ s.fsm = .idle ∧ s.fill ≠ 0#6 ∧
      issued s.input = present (.init :: (m.map .absorb ++ [.final])) ++ issued rest :=
  ⟨⟨{ State.reset with input := [.idle, .command 0x2061#16, .idle, .command 0x3000#16, .command 0x4000#16] }, [0x61#8],
      [.command 0x4000#16], by decide, ⟨rfl, rfl, by decide, by decide, by decide, by decide⟩, by decide, by decide⟩,
    ⟨{ idleWith 1 with input := [.command 0x1000#16, .idle, .command 0x2061#16, .command 0x3000#16] }, [0x61#8], [],
      by decide, rfl, by decide, by decide⟩⟩

/-- RoundStepsOfMessage: with nothing after FINAL, and with a command that waits. -/
theorem witness_RoundStepsOfMessage :
    (∃ (s : State) (m : List Byte), s.Absorbed [] ∧ s.input = present (m.map .absorb ++ [.final]) ++ [] ∧ m ≠ []) ∧
    ∃ (s : State) (m : List Byte) (rest : List HostMove), s.Absorbed [] ∧
      s.input = present (m.map .absorb ++ [.final]) ++ rest ∧ (∃ w more, rest = .command w :: more) ∧ noReset rest = true :=
  ⟨⟨{ State.reset with input := [.command 0x2061#16, .command 0x3000#16] }, [0x61#8],
      ⟨rfl, rfl, by decide, by decide, by decide, by decide⟩, by decide, by decide⟩,
    ⟨{ State.reset with input := [.command 0x3000#16, .command 0x4000#16] }, [], [.command 0x4000#16],
      ⟨rfl, rfl, by decide, by decide, by decide, by decide⟩, by decide, ⟨_, _, rfl⟩, by decide⟩⟩

theorem witness_HashReadsDocumentDigest : (0 : Nat) < 32 ∧ (31 : Nat) < 32 := by decide

theorem witness_EnginesAreIndependent :
    (∃ p q r : Platform, (0 : Nat) ≠ 1 ∧ p.stepEngine 0 = .next q ∧ q.stepEngine 1 = .next r ∧ p.engines.length = 2 ∧ p ≠ q) ∧
    (∃ (p : Platform) (s t : State), p.engines[0]? = some s ∧ step s = .next t ∧ t.fill ≠ s.fill) ∧
    Platform.reset.engines[1]? = none :=
  ⟨⟨⟨[given State.reset 0x2061#16, given State.reset 0x2062#16]⟩, _, _, by decide, rfl, rfl, rfl, by decide⟩,
    ⟨⟨[given State.reset 0x2061#16]⟩, _, _, rfl, rfl, by decide⟩, rfl⟩

theorem witness_PlatformKeepsItsEngines :
    (1 : Nat) < (⟨2, by decide⟩ : Config.NEngines).val ∧ Platform.reset.wf = true ∧
    ∃ q, Platform.reset.stepEngine 0 = .next q :=
  ⟨by decide, by decide, _, rfl⟩

end Sys2Proof.Tests
end

section
/-! SUPPORT. Runs under a host that issues commands one after the other: a command is accepted after finitely many steps, whatever
idle edges stand before it. -/

namespace Sys2Proof.Machine

open Sys2Proof

/-! ### The host's moves -/

/-- Idle edges hold no reset, so the commands issued tell whether a reset is pending. -/
theorem noReset_issued (ms : List HostMove) : noReset (issued ms) = noReset ms := by
  induction ms with
  | nil => rfl
  | cons mv ms ih => cases mv <;> simp_all [noReset, issued]

theorem noReset_present (is : List Instr) : noReset (present is) = true := by
  simp [noReset, present]

theorem present_append (is js : List Instr) : present (is ++ js) = present is ++ present js := List.map_append

theorem issued_present (is : List Instr) : issued (present is) = present is := by
  simp [issued, present]

theorem noReset_append (ms ns : List HostMove) : noReset (ms ++ ns) = (noReset ms && noReset ns) := by
  simp [noReset]

theorem noReset_of_issued {q ms : List HostMove} (h : issued q = ms) (hr : noReset ms = true) : noReset q = true := by
  rw [← noReset_issued, h, hr]

/-! ### Reachability -/

/-- The engine gets from `s` to `t` in some number of steps. -/
def Reaches (s t : State) : Prop := ∃ k, run k s = .next t

theorem Reaches.refl (s : State) : Reaches s s := ⟨0, run_zero s⟩

theorem Reaches.trans {s t u : State} : Reaches s t → Reaches t u → Reaches s u := by
  rintro ⟨j, hj⟩ ⟨k, hk⟩
  exact ⟨j + k, (run_add j k hj).trans hk⟩

theorem Reaches.of_step {s t : State} (h : step s = .next t) : Reaches s t := ⟨1, run_succ 0 h⟩

/-! ### Acceptance -/

/-- R54: a well-formed instruction decodes from its own encoding. -/
theorem decode_encode {i : Instr} (h : i.wf = true) : decode (encode i) = .command i := by
  cases i <;> simp_all [encode, decode, commandOf, Instr.wf]

/-- R52: the next command the host issues is executed, after the idle edges before it. -/
theorem reaches_exec {s : State} {i : Instr} {ms : List HostMove} (hb : s.isBusy = false) (hi : i.wf = true)
    (hq : issued s.input = .command (encode i) :: ms) :
    ∃ q, issued q = ms ∧ ∀ t, exec i { s with input := q } = .next t → Reaches s t := by
  generalize hin : s.input = moves at hq
  induction moves generalizing s with
  | nil => simp [issued] at hq
  | cons mv rest ih =>
    cases mv with
    | reset => simp [issued] at hq
    | command w =>
      obtain ⟨rfl, rfl⟩ : w = encode i ∧ issued rest = ms := by simpa [issued] using hq
      refine ⟨rest, rfl, fun t ht => .of_step ?_⟩
      rw [step_accept hb hin, accept_command (decode_encode hi), ht]
    | idle =>
      obtain ⟨q, hq', hexec⟩ := ih (s := { s with input := rest }) hb rfl (by simpa [issued] using hq)
      exact ⟨q, hq', fun t ht => (Reaches.of_step (step_quiet_idle hb hin)).trans (hexec t ht)⟩

end Sys2Proof.Machine
end

section
/-! SUPPORT. The stream of a message: ABSORB extends what has been absorbed (R67, R82), FINAL ends in the digest state
(R69-R72). -/

namespace Sys2Proof.Machine

open Sys2Proof

/-! ### The blocks of the padded message (R63, R64) -/

theorem getD_append_cons (l r : List Byte) (x : Byte) (a : Nat) :
    (l ++ x :: r).getD a 0#8 = if a < l.length then l.getD a 0#8 else if a = l.length then x
      else r.getD (a - l.length - 1) 0#8 := by
  by_cases h : a < l.length
  · rw [if_pos h, List.getD_append _ _ _ _ h]
  · rw [if_neg h, List.getD_append_right _ _ _ _ (by omega)]
    by_cases h' : a = l.length
    · simp [h']
    · rw [if_neg h', show a - l.length = (a - l.length - 1) + 1 by omega, List.getD_cons_succ, Nat.add_sub_cancel]

/-- `n` zero bytes and the length field. -/
def zerosLength (n : Nat) (v : BitVec 64) : List Byte := List.replicate n 0#8 ++ le64 v

theorem zerosLength_length (n : Nat) (v : BitVec 64) : (zerosLength n v).length = n + 8 := by
  simp [zerosLength, le64_length]

theorem zerosLength_getD {n a : Nat} (v : BitVec 64) (h : a < n + 8) :
    (zerosLength n v).getD a 0#8 = if n ≤ a then byteAt v (a - n) else 0#8 := by
  unfold zerosLength
  by_cases ha : n ≤ a
  · rw [if_pos ha, List.getD_append_right _ _ _ _ (by simpa using ha), List.length_replicate, le64_getD v (by omega)]
  · rw [if_neg ha, List.getD_append _ _ _ _ (by simpa using ha), List.getD_replicate _ (by omega)]

/-- The last block when the length fits behind the message tail (R70). -/
def lastBlock (m : List Byte) : List Byte := tailOf m ++ 0x80#8 :: zerosLength (55 - m.length % 64) (lengthField m)

/-- The block of the message tail when the length does not fit (R71). -/
def padBlock (m : List Byte) : List Byte := tailOf m ++ 0x80#8 :: List.replicate (63 - m.length % 64) 0#8

theorem lastBlock_length {m : List Byte} (h : m.length % 64 ≤ 55) : (lastBlock m).length = 64 := by
  simp [lastBlock, tailOf_length, zerosLength_length]; omega

theorem padBlock_length (m : List Byte) : (padBlock m).length = 64 := by
  simp [padBlock, tailOf_length]; omega

theorem paddedMessage_of_le {m : List Byte} (h : m.length % 64 ≤ 55) : paddedMessage m = headOf m ++ lastBlock m := by
  have hz : zeroCount m.length = 55 - m.length % 64 := by rw [zeroCount_eq]; omega
  simp only [paddedMessage, lastBlock, zerosLength, hz]
  nth_rw 1 [← head_tail m]
  simp

theorem paddedMessage_of_gt {m : List Byte} (h : 55 < m.length % 64) :
    paddedMessage m = headOf m ++ (padBlock m ++ zerosLength 56 (lengthField m)) := by
  have hz : zeroCount m.length = (63 - m.length % 64) + 56 := by rw [zeroCount_eq]; omega
  simp only [paddedMessage, padBlock, zerosLength, hz, List.replicate_add]
  nth_rw 1 [← head_tail m]
  simp

/-- R76 with R70: one block after the full ones. -/
theorem digestState_of_le {m : List Byte} (h : m.length % 64 ≤ 55) :
    digestState m = compress (chain m) (blockWord (lastBlock m)) := by
  rw [digestState, paddedMessage_of_le h, chain_append_block (headOf_length_mod m) (lastBlock_length h), ← chain_head]

/-- R76 with R71: two blocks after the full ones. -/
theorem digestState_of_gt {m : List Byte} (h : 55 < m.length % 64) :
    digestState m
      = compress (compress (chain m) (blockWord (padBlock m))) (blockWord (zerosLength 56 (lengthField m))) := by
  have hlen : (headOf m ++ padBlock m).length % 64 = 0 := by
    rw [List.length_append, padBlock_length, headOf_length]; omega
  rw [digestState, paddedMessage_of_gt h, ← List.append_assoc, chain_append_block hlen (zerosLength_length _ _),
    chain_append_block (headOf_length_mod m) (padBlock_length m), ← chain_head]

/-! ### The buffer of an engine that has absorbed a message -/

section
variable {s : State} {m : List Byte} (h : s.Absorbed m)
include h

/-- The host's moves are no part of what has been absorbed. -/
theorem State.Absorbed.with_input (q : List HostMove) : ({ s with input := q } : State).Absorbed m :=
  ⟨h.idle, h.rnd_zero, h.len, h.fill_eq, h.chained, h.tail⟩

theorem State.Absorbed.read_tail {a : Addr} (ha : a.toNat < m.length % 64) : s.buf.read a = (tailOf m).getD a.toNat 0#8 := by
  have := h.tail a.toNat ha
  rwa [BitVec.ofNat_toNat, BitVec.setWidth_eq, ← tailOf_getD] at this

theorem State.Absorbed.eq_fill_iff {a : Addr} : a = s.fill ↔ a.toNat = m.length % 64 := by
  rw [← BitVec.toNat_inj, h.fill_eq]

/-- The message tail from address 0 on, then `x` at fill, then what `rest` holds: a block that starts
with the tail. -/
theorem State.Absorbed.tail_getD {x y : Byte} {rest : List Byte} {a : Addr}
    (hrest : m.length % 64 < a.toNat → y = rest.getD (a.toNat - m.length % 64 - 1) 0#8) :
    (if a.toNat < s.fill.toNat then s.buf.read a else if a = s.fill then x else y)
      = (tailOf m ++ x :: rest).getD a.toNat 0#8 := by
  rw [getD_append_cons, tailOf_length, h.fill_eq]
  rcases Nat.lt_trichotomy a.toNat (m.length % 64) with hlt | heq | hgt
  · rw [if_pos hlt, if_pos hlt, h.read_tail hlt]
  · rw [if_neg (by omega), if_pos (h.eq_fill_iff.2 heq), if_neg (by omega), if_pos heq]
  · rw [if_neg (by omega), if_neg (mt h.eq_fill_iff.1 (by omega)), if_neg (by omega), if_neg (by omega), hrest hgt]

/-- ABSORB puts its byte right after the message tail. -/
theorem State.Absorbed.read_write_fill (b : Byte) {a : Addr} (ha : a.toNat ≤ m.length % 64) :
    (s.buf.write s.fill b).read a = (tailOf m ++ [b]).getD a.toNat 0#8 := by
  rw [← h.tail_getD (y := 0#8) (by omega), Memory.read_write]
  by_cases hf : a = s.fill
  · rw [if_pos hf, if_neg (by rw [hf]; omega), if_pos hf]
  · have := mt h.eq_fill_iff.2 hf
    rw [if_neg hf, if_pos (by rw [h.fill_eq]; omega)]

/-- FINAL leaves the last block in the buffer when the length fits (R70). -/
theorem State.Absorbed.read_finalPad_of_le (hm : m.length % 64 ≤ 55) (a : Addr) :
    (finalPad s).buf.read a = (lastBlock m).getD a.toNat 0#8 := by
  have ha := a.isLt
  rw [read_finalPad, lastBlock, h.tail_getD fun hgt => ?_]
  rw [zerosLength_getD _ (by omega), h.fill_eq, h.len]
  by_cases h56 : 56 ≤ a.toNat
  · rw [if_pos ⟨hm, h56⟩, if_pos (by omega)]; congr 1; omega
  · rw [if_neg (by omega), if_neg (by omega)]

/-- FINAL leaves the padding block in the buffer when the length does not fit (R71). -/
theorem State.Absorbed.read_finalPad_of_gt (hm : 55 < m.length % 64) (a : Addr) :
    (finalPad s).buf.read a = (padBlock m).getD a.toNat 0#8 := by
  have ha := a.isLt
  rw [read_finalPad, padBlock, h.tail_getD fun hgt => ?_]
  rw [h.fill_eq, if_neg (by omega), List.getD_replicate _ (by omega)]

end

/-! ### ABSORB -/

theorem tailOf_append {m : List Byte} (b : Byte) (h : m.length % 64 < 63) : tailOf (m ++ [b]) = tailOf m ++ [b] := by
  rw [tailOf, tailOf, List.length_append, List.length_singleton,
    show (m.length + 1) / 64 = m.length / 64 by omega, List.drop_append_of_le_length (by omega)]

/-- R82: a byte that does not fill its block leaves the chaining value. -/
theorem chain_append_of_lt {m : List Byte} (b : Byte) (h : m.length % 64 < 63) : chain (m ++ [b]) = chain m := by
  have hlen : (tailOf m ++ [b]).length < 64 := by rw [List.length_append, tailOf_length, List.length_singleton]; omega
  rw [chain_head m, ← chain_append_short (headOf_length_mod m) hlen, ← List.append_assoc, head_tail]

/-- R82: the byte that fills its block compresses it. -/
theorem chain_append_of_eq {m : List Byte} (b : Byte) (h : m.length % 64 = 63) :
    chain (m ++ [b]) = compress (chain m) (blockWord (tailOf m ++ [b])) := by
  have hlen : (tailOf m ++ [b]).length = 64 := by rw [List.length_append, tailOf_length, List.length_singleton]; omega
  rw [chain_head m, ← chain_append_block (headOf_length_mod m) hlen, ← List.append_assoc, head_tail]

/-- R67: a byte that does not fill its block is absorbed at once. -/
theorem State.Absorbed.absorbByte_of_lt {s : State} {m : List Byte} (h : s.Absorbed m) (b : Byte)
    (hm : m.length % 64 < 63) : (absorbByte b s).Absorbed (m ++ [b]) := by
  rw [Machine.absorbByte_of_lt (by rw [h.fill_eq]; exact hm)]
  have hmod : (m ++ [b]).length % 64 = m.length % 64 + 1 := by rw [List.length_append, List.length_singleton]; omega
  refine ⟨h.idle, h.rnd_zero, ?_, ?_, ?_, ?_⟩
  · simp only [h.len, lengthField_append]
  · simp only [hmod, BitVec.toNat_add, h.fill_eq, BitVec.toNat_ofNat]; omega
  · simp only [h.chained, chain_append_of_lt b hm]
  · intro a ha
    have hn : (BitVec.ofNat 6 a).toNat = a := by rw [BitVec.toNat_ofNat]; omega
    rw [← tailOf_getD, tailOf_append b hm]
    simpa only [hn] using h.read_write_fill b (a := BitVec.ofNat 6 a) (by omega)

/-- R67, R82: a byte that fills its block is absorbed when the block is compressed. -/
theorem State.Absorbed.run_absorbByte_of_eq {s : State} {m : List Byte} (h : s.Absorbed m) (b : Byte)
    (hm : m.length % 64 = 63) (hr : noReset s.input = true) :
    ∃ u, run 64 (absorbByte b s) = .next u ∧ u.Absorbed (m ++ [b]) ∧ u.ecode = s.ecode ∧
      issued u.input = issued s.input := by
  rw [Machine.absorbByte_of_eq (by rw [h.fill_eq]; exact hm)]
  obtain ⟨u, hu, he⟩ := run_block (b := .comp)
    (s := { s with
      buf := s.buf.write s.fill b, L := s.L + 8#64, fill := 0#6, W := s.H, rnd := 0#6, fsm := .busy .comp }) rfl rfl rfl hr
  have hmod : (m ++ [b]).length % 64 = 0 := by rw [List.length_append, List.length_singleton]; omega
  refine ⟨u, hu, ⟨he.fsm, he.rnd, ?_, ?_, ?_, ?_⟩, he.ecode, he.issued⟩
  · rw [he.L, lengthField_append, h.len]
  · rw [he.fill, hmod]; rfl
  · rw [he.H, chain_append_of_eq b hm, h.chained]
    exact compress_of_block _ fun a => h.read_write_fill b (by have := a.isLt; omega)
  · intro a ha; omega

@[simp] theorem absorbByte_ecode (b : Byte) (s : State) : (absorbByte b s).ecode = s.ecode := by
  unfold absorbByte
  split <;> rfl

/-- R67: ABSORB extends the message, at once or after the compression of its block. -/
theorem State.Absorbed.reaches_absorbByte {s : State} {m : List Byte} (h : s.Absorbed m) (b : Byte)
    (hr : noReset s.input = true) :
    ∃ t, Reaches (absorbByte b s) t ∧ t.Absorbed (m ++ [b]) ∧ t.ecode = s.ecode ∧ issued t.input = issued s.input := by
  by_cases hm : m.length % 64 < 63
  · exact ⟨_, .refl _, h.absorbByte_of_lt b hm, by simp, by simp⟩
  · obtain ⟨u, hu, he⟩ := h.run_absorbByte_of_eq b (by omega) hr
    exact ⟨u, ⟨64, hu⟩, he⟩

/-- R67, R76: the ABSORB commands of a message extend what has been absorbed by the message. -/
theorem State.Absorbed.reaches_absorbs {s : State} {m₀ : List Byte} (h : s.Absorbed m₀) {m : List Byte}
    {ms : List HostMove} (hq : issued s.input = present (m.map .absorb) ++ ms) (hr : noReset ms = true) :
    ∃ t, Reaches s t ∧ t.Absorbed (m₀ ++ m) ∧ t.ecode = s.ecode ∧ issued t.input = ms := by
  induction m generalizing s m₀ with
  | nil => exact ⟨s, .refl s, by simpa using h, rfl, by simpa [present] using hq⟩
  | cons b m ih =>
    have hb : s.isBusy = false := isBusy_eq_false.2 (.inl h.idle)
    obtain ⟨q, hqi, hexec⟩ := reaches_exec (i := .absorb b) (ms := present (m.map .absorb) ++ ms) hb rfl hq
    have hqr : noReset q = true := noReset_of_issued hqi (by simp [noReset_append, noReset_present, hr])
    obtain ⟨u, hu, hua, hue, hui⟩ := (h.with_input q).reaches_absorbByte b hqr
    obtain ⟨t, ht, hta, hte, hti⟩ := ih hua (hui.trans hqi)
    refine ⟨t, ((hexec _ (exec_absorb_idle (h.with_input q).idle b)).trans hu).trans ht, ?_, hte.trans hue, hti⟩
    rwa [List.append_assoc, List.singleton_append] at hta

/-! ### FINAL -/

/-- What FINAL ends in: DONE with the digest state of the message, the issued commands still waiting. -/
structure State.Digested (s : State) (m : List Byte) (ecode : BitVec 4) (ms : List HostMove) : Prop where
  done : s.fsm = .done
  rnd_zero : s.rnd = 0#6
  digest : s.H = digestState m
  ecode_eq : s.ecode = ecode
  issued_eq : issued s.input = ms

/-- R70: the length fits, and one compression gives the digest state. -/
theorem State.Absorbed.run_finalPad_of_le {s : State} {m : List Byte} (h : s.Absorbed m) (hm : m.length % 64 ≤ 55)
    (hr : noReset s.input = true) :
    ∃ u, run 64 (finalPad s) = .next u ∧ u.Digested m s.ecode (issued s.input) := by
  have hf : s.fill.toNat ≤ 55 := h.fill_eq.trans_le hm
  obtain ⟨u, hu, he⟩ := run_block (b := .compLast) (s := finalPad s) (by simp [finalPad_eq, hf]) (by simp [finalPad_eq])
    (by simp [finalPad_eq]) (by simpa using hr)
  refine ⟨u, hu, he.fsm, he.rnd, ?_, ?_, ?_⟩
  · rw [he.H, compress_of_block _ (h.read_finalPad_of_le hm), digestState_of_le hm, ← h.chained, finalPad_eq]
  · rw [he.ecode, finalPad_eq]
  · rw [he.issued, finalPad_input]

/-- R71, R72: the length does not fit, and the length block's compression gives the digest state. -/
theorem State.Absorbed.run_finalPad_of_gt {s : State} {m : List Byte} (h : s.Absorbed m) (hm : 55 < m.length % 64)
    (hr : noReset s.input = true) :
    ∃ u, run 128 (finalPad s) = .next u ∧ u.Digested m s.ecode (issued s.input) := by
  have hf : ¬ s.fill.toNat ≤ 55 := by rw [h.fill_eq]; omega
  obtain ⟨t, ht, hp⟩ := run_block (b := .compPad) (s := finalPad s) (by simp [finalPad_eq, hf]) (by simp [finalPad_eq])
    (by simp [finalPad_eq]) (by simpa using hr)
  obtain ⟨u, hu, he⟩ := run_block (b := .compLast) hp.fsm hp.rnd (hp.pad_W rfl) hp.noReset
  have hlen : ∀ a : Addr, t.buf.read a = (zerosLength 56 (lengthField m)).getD a.toNat 0#8 := fun a => by
    rw [hp.pad_buf rfl a, zerosLength_getD _ a.isLt, ← h.len, finalPad_eq]
  refine ⟨u, (run_add 64 64 ht).trans hu, he.fsm, he.rnd, ?_, ?_, ?_⟩
  · rw [he.H, compress_of_block _ hlen, hp.H, compress_of_block _ (h.read_finalPad_of_gt hm), digestState_of_gt hm,
      ← h.chained, finalPad_eq]
  · rw [he.ecode, hp.ecode, finalPad_eq]
  · rw [he.issued, hp.issued, finalPad_input]

theorem State.Absorbed.reaches_finalPad {s : State} {m : List Byte} (h : s.Absorbed m) (hr : noReset s.input = true) :
    ∃ u, Reaches (finalPad s) u ∧ u.Digested m s.ecode (issued s.input) := by
  by_cases hm : m.length % 64 ≤ 55
  · obtain ⟨u, hu, hd⟩ := h.run_finalPad_of_le hm hr
    exact ⟨u, ⟨64, hu⟩, hd⟩
  · obtain ⟨u, hu, hd⟩ := h.run_finalPad_of_gt (by omega) hr
    exact ⟨u, ⟨128, hu⟩, hd⟩

/-! ### The whole stream (R61, R76) -/

/-- R76: ABSORB of each byte and FINAL end in the digest state. -/
theorem State.Absorbed.reaches_digest {s : State} (h : s.Absorbed []) {m : List Byte} {ms : List HostMove}
    (hq : issued s.input = present (m.map .absorb ++ [.final]) ++ ms) (hr : noReset ms = true) :
    ∃ t, Reaches s t ∧ t.Digested m s.ecode ms := by
  obtain ⟨t, ht, hta, hte, hti⟩ := h.reaches_absorbs (m := m) (ms := .command (encode .final) :: ms)
    (by rw [hq, present_append, List.append_assoc]; rfl) (by simpa [noReset] using hr)
  obtain ⟨q, hqi, hexec⟩ := reaches_exec (isBusy_eq_false.2 (.inl hta.idle)) rfl hti
  obtain ⟨u, hu, hd⟩ := (hta.with_input q).reaches_finalPad (noReset_of_issued hqi hr)
  refine ⟨u, (ht.trans (hexec _ (exec_final_idle hta.idle))).trans hu, ?_⟩
  rwa [hqi, hte] at hd

/-- R78: nothing is absorbed after INIT. -/
theorem initMessage_absorbed (s : State) : (initMessage s).Absorbed [] :=
  ⟨rfl, rfl, rfl, rfl, rfl, nofun⟩

/-- R61, R79: HASH in IDLE or DONE ends in the digest state. -/
theorem reaches_digest_of_hash {s : State} (hs : s.fsm = .idle ∨ s.fsm = .done) {m : List Byte} {ms : List HostMove}
    (hq : issued s.input = present (Pseudo.hash m).expand ++ ms) (hr : noReset ms = true) :
    ∃ t, Reaches s t ∧ t.Digested m s.ecode ms := by
  have hb : s.isBusy = false := isBusy_eq_false.2 (hs.imp_right .inl)
  obtain ⟨q, hqi, hexec⟩ := reaches_exec (i := .init) hb rfl hq
  obtain ⟨t, ht, hd⟩ := (initMessage_absorbed { s with input := q }).reaches_digest hqi hr
  exact ⟨t, (hexec _ (exec_init hs)).trans ht, hd⟩

/-! ### RDHEX -/

theorem hexDigest_getD (m : List Byte) {p : Nat} (hp : p < 32) :
    (hexDigest m).getD p 0#8 = hexChar (digestNibble (digestState m) (BitVec.ofNat 5 p)) := by
  simp [hexDigest, hp]

/-- R104, R105: RDHEX p in DONE with the digest state of m reads character p of m's digest. -/
theorem State.Digested.exec_rdhex {s : State} {m : List Byte} {ecode : BitVec 4} {ms : List HostMove}
    (h : s.Digested m ecode ms) {p : Nat} (hp : p < 32) :
    exec (.rdhex (BitVec.ofNat 8 p)) s = .next { s with rdata := ((hexDigest m).getD p 0#8).setWidth 32 } := by
  have h8 : ¬ 31 < (BitVec.ofNat 8 p).toNat := by rw [BitVec.toNat_ofNat]; omega
  have h5 : (BitVec.ofNat 8 p).setWidth 5 = BitVec.ofNat 5 p := by
    apply BitVec.eq_of_toNat_eq; simp only [BitVec.toNat_setWidth, BitVec.toNat_ofNat]; omega
  rw [Machine.exec_rdhex, readCommand_done h.done, if_neg h8, h5, h.digest, hexDigest_getD m hp]

end Sys2Proof.Machine
end

section
/-! SUPPORT. The engines of a platform. -/

namespace Sys2Proof.Machine

/-- A step of an engine keeps the number of engines (R6, R50). -/
theorem stepEngine_length {p q : Platform} {i : Nat} (h : p.stepEngine i = .next q) :
    q.engines.length = p.engines.length := by
  rcases stepEngine_cases h with ⟨_, rfl⟩ | ⟨s, t, _, _, rfl⟩
  · rfl
  · exact List.length_set

theorem Platform.reset_length (n : Config.NEngines) : (Platform.reset n).engines.length = n.val := by
  simp [Platform.reset]

end Sys2Proof.Machine
end

section
/-! PROOF. The statements of 00_scope.md: HASH and a read from reset (R12), and a platform's engines (R6). -/

open Sys2Proof Sys2Proof.Machine

/-- Settles O56: HASH ends in DONE with the digest state in H, from which RDHEX p reads. -/
theorem hashReadsDocumentDigest : Obligations.HashReadsDocumentDigest := by
  unfold Obligations.HashReadsDocumentDigest
  intro m p hp
  have hwf : (Instr.rdhex (BitVec.ofNat 8 p)).wf = true := by simp [Instr.wf]; omega
  obtain ⟨t, ht, hd⟩ := reaches_digest_of_hash (m := m) (ms := present [.rdhex (BitVec.ofNat 8 p)])
    (s := { State.reset with input := present ((Pseudo.hash m).expand ++ [.rdhex (BitVec.ofNat 8 p)]) }) (.inl rfl)
    (by rw [issued_present, present_append]) (noReset_present _)
  obtain ⟨q, hq, hexec⟩ := reaches_exec (isBusy_eq_false.2 (.inr (.inl hd.done))) hwf hd.issued_eq
  have hdq : State.Digested { t with input := q } m 0#4 [] := ⟨hd.done, hd.rnd_zero, hd.digest, hd.ecode_eq, hq⟩
  obtain ⟨k, hk⟩ := ht.trans (hexec _ (hdq.exec_rdhex hp))
  exact ⟨k, _, hk, hd.done, hq, rfl⟩

/-- Settles O58: reset makes the engines, and a step sets one of them in its place. -/
theorem platformKeepsItsEngines : Obligations.PlatformKeepsItsEngines := by
  unfold Obligations.PlatformKeepsItsEngines
  refine ⟨fun n => ⟨n.property, Platform.reset_length n, ?_⟩, Platform.reset_length _, fun n i hi => ?_,
    fun p q i h => ⟨stepEngine_length h, fun hw => ?_⟩⟩
  · rw [Platform.wf, Platform.reset_length, decide_eq_true n.property]
  · simp [Platform.reset, hi]
  · rwa [Platform.wf, stepEngine_length h]
end

section
/-! SUPPORT. ABSORB's and FINAL's next states field by field, and the effect of a step as a choice that the FSM state and the host's
moves make alone. -/

namespace Sys2Proof.Machine

open Sys2Proof

/-! ### ABSORB and FINAL, field by field -/

/-- R67, R83: below the 64th byte and at it alike, since fill wraps to 0 there. -/
theorem absorbByte_eq (b : Byte) (s : State) :
    absorbByte b s = { s with
      buf := s.buf.write s.fill b
      L := s.L + 8#64
      fill := s.fill + 1#6
      W := if s.fill = 63#6 then s.H else s.W
      rnd := if s.fill = 63#6 then 0#6 else s.rnd
      fsm := if s.fill = 63#6 then .busy .comp else s.fsm } := by
  by_cases h : s.fill = 63#6 <;> simp [absorbByte, h, startCompress]

section
variable (b : Byte) (s : State)

@[simp] theorem absorbByte_H : (absorbByte b s).H = s.H := by rw [absorbByte_eq]
@[simp] theorem absorbByte_W : (absorbByte b s).W = if s.fill = 63#6 then s.H else s.W := by rw [absorbByte_eq]
@[simp] theorem absorbByte_buf : (absorbByte b s).buf = s.buf.write s.fill b := by rw [absorbByte_eq]
@[simp] theorem absorbByte_L : (absorbByte b s).L = s.L + 8#64 := by rw [absorbByte_eq]
@[simp] theorem absorbByte_fill : (absorbByte b s).fill = s.fill + 1#6 := by rw [absorbByte_eq]
@[simp] theorem absorbByte_rnd : (absorbByte b s).rnd = if s.fill = 63#6 then 0#6 else s.rnd := by rw [absorbByte_eq]
@[simp] theorem absorbByte_fsm : (absorbByte b s).fsm = if s.fill = 63#6 then .busy .comp else s.fsm := by
  rw [absorbByte_eq]
@[simp] theorem absorbByte_rdata : (absorbByte b s).rdata = s.rdata := by rw [absorbByte_eq]

@[simp] theorem finalPad_H : (finalPad s).H = s.H := by rw [finalPad_eq]
@[simp] theorem finalPad_W : (finalPad s).W = s.H := by rw [finalPad_eq]
@[simp] theorem finalPad_L : (finalPad s).L = s.L := by rw [finalPad_eq]
@[simp] theorem finalPad_fill : (finalPad s).fill = 0#6 := by rw [finalPad_eq]
@[simp] theorem finalPad_rnd : (finalPad s).rnd = 0#6 := by rw [finalPad_eq]
@[simp] theorem finalPad_fsm :
    (finalPad s).fsm = if s.fill.toNat ≤ 55 then .busy .compLast else .busy .compPad := by rw [finalPad_eq]
@[simp] theorem finalPad_ecode : (finalPad s).ecode = s.ecode := by rw [finalPad_eq]
@[simp] theorem finalPad_rdata : (finalPad s).rdata = s.rdata := by rw [finalPad_eq]

theorem finalPad_isBusy : (finalPad s).isBusy = true := by
  rw [isBusy_eq_true, finalPad_fsm]
  split <;> exact ⟨_, rfl⟩

end

theorem isBusy_eq_false_of {s : State} (h : s.fsm = .idle ∨ s.fsm = .done) : s.isBusy = false :=
  isBusy_eq_false.2 (h.imp_right .inl)

theorem isErr_eq_false_of {s : State} (h : s.fsm = .idle ∨ s.fsm = .done) : s.isErr = false :=
  isErr_eq_false.2 (by rcases h with h | h <;> simp [h])

/-! ### The effect of a step -/

/-- What one step can do to an engine once the host's move is taken: one effect for each row of R31's table, and none. -/
inductive Effect where
  | none
  | reset
  | round (b : Block)
  | raised (c : Cause)
  | init
  | absorb (b : Byte)
  | final
  /-- The read command `i`, with the value it selects from H (R101, R102, R104). -/
  | read (i : Instr) (value : Words4 → Word)

/-- The engine after the effect. -/
def Effect.apply : Effect → State → State
  | .none, s => s
  | .reset, s => resetAction s
  | .round b, s => roundStep b s
  | .raised c, s => raise c s
  | .init, s => initMessage s
  | .absorb b, s => absorbByte b s
  | .final, s => finalPad s
  | .read _ value, s => { s with rdata := value s.H }

/-- When the next step can have the effect: the FSM state it needs, and the host's move that asks for it. -/
inductive Effect.Enabled (s : State) : Effect → Prop where
  | none : Enabled s .none
  | reset (h : s.AtReset) : Enabled s .reset
  | round {b : Block} (hf : s.fsm = .busy b) : Enabled s (.round b)
  | raised {c : Cause} (hf : s.fsm = .idle ∨ s.fsm = .done) : Enabled s (.raised c)
  | init (hf : s.fsm = .idle ∨ s.fsm = .done) (ha : s.Accepts .init) : Enabled s .init
  | absorb {b : Byte} (hf : s.fsm = .idle) (ha : s.Accepts (.absorb b)) : Enabled s (.absorb b)
  | final (hf : s.fsm = .idle) (ha : s.Accepts .final) : Enabled s .final
  | read {i : Instr} {value : Words4 → Word} (hf : s.fsm = .done) (hi : Instr.IsRead i) (ha : s.Accepts i) :
      Enabled s (.read i value)

/-- A read command's effect depends on the FSM state and its index. -/
theorem readCommand_effect {s : State} (hf : s.fsm = .idle ∨ s.fsm = .done) {i : Instr} (hi : Instr.IsRead i) (ha : s.Accepts i)
    (n : Nat) (x : Byte) (value : Words4 → Word) :
    ∃ e : Effect, e.Enabled s ∧ ∀ s' : State, s'.fsm = s.fsm → readCommand n x (value s'.H) s' = e.apply s' := by
  rcases hf with hf | hf
  · exact ⟨.raised (if n < x.toNat then .operandRange else .readBeforeDone), .raised (.inl hf), fun s' h =>
      readCommand_idle (h.trans hf) n x _⟩
  · by_cases hx : n < x.toNat
    · exact ⟨.raised .operandRange, .raised (.inr hf), fun s' h => by rw [readCommand_done (h.trans hf), if_pos hx]; rfl⟩
    · exact ⟨.read i value, .read hf hi ha, fun s' h => by rw [readCommand_done (h.trans hf), if_neg hx]; rfl⟩

/-- A command's effect depends on the FSM state alone. -/
theorem exec_effect {s : State} (hf : s.fsm = .idle ∨ s.fsm = .done) {i : Instr} (ha : s.Accepts i) :
    ∃ e : Effect, e.Enabled s ∧ ∀ s' : State, s'.fsm = s.fsm → exec i s' = .next (e.apply s') := by
  cases i with
  | nop => exact ⟨.none, .none, fun s' _ => rfl⟩
  | init => exact ⟨.init, .init hf ha, fun s' h => exec_init (by rwa [h])⟩
  | absorb b =>
    rcases hf with hf | hf
    · exact ⟨.absorb b, .absorb hf ha, fun s' h => exec_absorb_idle (h.trans hf) b⟩
    · exact ⟨.raised .sequenceAfterFinal, .raised (.inr hf), fun s' h => exec_absorb_done (h.trans hf) b⟩
  | final =>
    rcases hf with hf | hf
    · exact ⟨.final, .final hf ha, fun s' h => exec_final_idle (h.trans hf)⟩
    · exact ⟨.raised .sequenceAfterFinal, .raised (.inr hf), fun s' h => exec_final_done (h.trans hf)⟩
  | rdword w =>
    obtain ⟨e, he, h⟩ := readCommand_effect hf ⟨w, .inl rfl⟩ ha 3 w (·.word (w.setWidth 2))
    exact ⟨e, he, fun s' hs => congrArg _ (h s' hs)⟩
  | rdbyte j =>
    obtain ⟨e, he, h⟩ := readCommand_effect hf ⟨j, .inr (.inl rfl)⟩ ha 15 j
      (fun d => (digestByte d (j.setWidth 4)).setWidth 32)
    exact ⟨e, he, fun s' hs => congrArg _ (h s' hs)⟩
  | rdhex p =>
    obtain ⟨e, he, h⟩ := readCommand_effect hf ⟨p, .inr (.inr rfl)⟩ ha 31 p
      (fun d => (hexChar (digestNibble d (p.setWidth 5))).setWidth 32)
    exact ⟨e, he, fun s' hs => congrArg _ (h s' hs)⟩

/-- The word an engine accepts in IDLE or DONE has an effect that depends on the FSM state and the word alone. -/
theorem accept_effect {s : State} {w : Cmd} {rest : List HostMove} (hf : s.fsm = .idle ∨ s.fsm = .done)
    (hin : s.input = .command w :: rest) :
    ∃ e : Effect, e.Enabled s ∧ ∀ s' : State, s'.fsm = s.fsm → accept w s' = .next (e.apply s') := by
  cases hd : decode w with
  | error e =>
    exact ⟨.raised (causeOf e), .raised hf, fun s' h => accept_error (by rcases hf with hf | hf <;> simp [h, hf]) hd⟩
  | command i =>
    obtain ⟨e, he, h⟩ := exec_effect hf ⟨isBusy_eq_false_of hf, isErr_eq_false_of hf, w, rest, hin, hd⟩
    exact ⟨e, he, fun s' hs => (accept_command hd).trans (h s' hs)⟩

theorem State.with_input_self {s : State} {q : List HostMove} (h : s.input = q) : { s with input := q } = s := by
  subst h; rfl

/-- Two engines with the same FSM state and the same moves before them take steps of the same effect, whatever their
registers hold. -/
theorem step_effect (s : State) :
    ∃ (e : Effect) (q : List HostMove), e.Enabled s ∧
      ∀ s' : State, s'.fsm = s.fsm → s'.input = s.input → step s' = .next (e.apply { s' with input := q }) := by
  have busy {s' : State} (h : s'.fsm = s.fsm) : s'.isBusy = s.isBusy := by simp only [State.isBusy, h]
  cases hin : s.input with
  | nil =>
    cases hb : s.isBusy with
    | true =>
      obtain ⟨b, hf⟩ := isBusy_eq_true.1 hb
      exact ⟨.round b, [], .round hf, fun s' h hi => by
        rw [State.with_input_self hi]; exact step_busy_nil (h.trans hf) hi⟩
    | false =>
      exact ⟨.none, [], .none, fun s' h hi => by
        rw [State.with_input_self hi]; exact step_quiet_nil ((busy h).trans hb) hi⟩
  | cons mv rest =>
    cases mv with
    | reset => exact ⟨.reset, rest, .reset ⟨rest, hin⟩, fun s' _ hi => step_reset hi⟩
    | idle =>
      cases hb : s.isBusy with
      | true =>
        obtain ⟨b, hf⟩ := isBusy_eq_true.1 hb
        exact ⟨.round b, rest, .round hf, fun s' h hi => step_busy_idle (h.trans hf) hi⟩
      | false => exact ⟨.none, rest, .none, fun s' h hi => step_quiet_idle ((busy h).trans hb) hi⟩
    | command w =>
      rcases fsm_cases s with hf | ⟨b, hf⟩ | hf
      · exact ⟨.none, rest, .none, fun s' h hi => by
          rw [step_accept (isBusy_eq_false.2 (.inr (.inr (h.trans hf)))) hi]
          exact accept_of_fault (s := { s' with input := rest }) (h.trans hf) w⟩
      · exact ⟨.round b, .command w :: rest, .round hf, fun s' h hi => by
          rw [State.with_input_self hi]; exact step_busy_command (h.trans hf) hi⟩
      · obtain ⟨e, he, ha⟩ := accept_effect hf hin
        exact ⟨e, rest, he, fun s' h hi => by
          rw [step_accept ((busy h).trans (isBusy_eq_false_of hf)) hi]
          exact ha _ h⟩

/-- What one step of an engine is: an effect, with the host's move taken. -/
theorem step_effect_of {s t : State} (h : step s = .next t) :
    ∃ (e : Effect) (q : List HostMove), e.Enabled s ∧ t = e.apply { s with input := q } := by
  obtain ⟨e, q, he, hs⟩ := step_effect s
  rw [hs s rfl rfl] at h
  exact ⟨e, q, he, (Host.Outcome.next.inj h).symm⟩

/-- Two engines with the same FSM state and the same moves before them take steps to engines in relation `R`, when every
effect the step can have does. -/
theorem step_simulation {R : State → State → Prop} {s s' t : State} (hfsm : s.fsm = s'.fsm) (hin : s.input = s'.input)
    (hR : ∀ (e : Effect) (q : List HostMove), e.Enabled s → R (e.apply { s with input := q }) (e.apply { s' with input := q }))
    (h : step s = .next t) : ∃ t', step s' = .next t' ∧ R t t' := by
  obtain ⟨e, q, he, hs⟩ := step_effect s
  rw [hs s rfl rfl] at h
  cases h
  exact ⟨_, hs s' hfsm.symm hin.symm, hR e q he⟩

end Sys2Proof.Machine
end

section
/-! SUPPORT. The invariant of R29 through each effect of a step. -/

namespace Sys2Proof.Machine

open Sys2Proof

namespace State.Inv

/-- R30: the reset action establishes the invariant from any state. -/
theorem resetAction (s : State) : (resetAction s).Inv where
  buf_wf := Memory.wf_writeRange _ _ _ _ Memory.wf_nil
  rnd_zero _ := rfl
  fill_zero _ := rfl
  len_bytes := rfl
  ecode_zero := by simp [isErr_eq_false]
  ecode_cause := Nat.zero_le _

theorem reset : State.reset.Inv where
  buf_wf := Memory.wf_nil
  rnd_zero _ := rfl
  fill_zero _ := rfl
  len_bytes := rfl
  ecode_zero := iff_of_true rfl rfl
  ecode_cause := Nat.zero_le _

variable {s : State} (h : s.Inv)
include h

theorem with_input (q : List HostMove) : ({ s with input := q } : State).Inv :=
  ⟨h.buf_wf, h.rnd_zero, h.fill_zero, h.len_bytes, h.ecode_zero, h.ecode_cause⟩

theorem with_rdata (v : Word) : ({ s with rdata := v } : State).Inv :=
  ⟨h.buf_wf, h.rnd_zero, h.fill_zero, h.len_bytes, h.ecode_zero, h.ecode_cause⟩

theorem ecode_zero_of_ne_fault (hf : s.fsm ≠ .fault) : s.ecode = 0#4 := h.ecode_zero.2 (isErr_eq_false.2 hf)

/-- The ECODE part of the invariant, for an update that keeps ECODE and neither enters nor leaves FAULT. -/
theorem ecode_zero_of_eq {t : State} (he : t.ecode = s.ecode) (hs : s.fsm ≠ .fault) (ht : t.fsm ≠ .fault) :
    t.ecode = 0#4 ↔ t.isErr = false :=
  iff_of_true (he.trans (h.ecode_zero_of_ne_fault hs)) (isErr_eq_false.2 ht)

theorem raise (c : Cause) (hf : s.fsm = .idle ∨ s.fsm = .done) : (raise c s).Inv where
  buf_wf := h.buf_wf
  rnd_zero _ := h.rnd_zero (isBusy_eq_false_of hf)
  fill_zero := by simp [State.isBusy, State.isDone]
  len_bytes := h.len_bytes
  ecode_zero := by
    have hc : c.code ≠ 0#4 := by cases c <;> decide
    simp [hc, isErr_eq_false]
  ecode_cause := c.code_bounds.2

theorem initMessage (hf : s.fsm ≠ .fault) : (initMessage s).Inv where
  buf_wf := h.buf_wf
  rnd_zero _ := rfl
  fill_zero _ := rfl
  len_bytes := rfl
  ecode_zero := h.ecode_zero_of_eq rfl hf nofun
  ecode_cause := h.ecode_cause

/-- R68: L stays a multiple of 8. -/
theorem len_add_eight : (s.L + 8#64).toNat % 8 = 0 := by
  have := h.len_bytes
  rw [BitVec.toNat_add, BitVec.toNat_ofNat]
  omega

theorem absorbByte (b : Byte) (hf : s.fsm = .idle) : (absorbByte b s).Inv where
  buf_wf := wf_absorbByte b h.buf_wf
  rnd_zero _ := by
    rw [absorbByte_rnd, h.rnd_zero (isBusy_eq_false.2 (.inl hf)), ite_self]
  fill_zero hb := by
    by_cases h63 : s.fill = 63#6
    · rw [absorbByte_fill, h63]; rfl
    · simp [State.isBusy, State.isDone, h63, hf] at hb
  len_bytes := by rw [absorbByte_L]; exact h.len_add_eight
  ecode_zero := h.ecode_zero_of_eq (absorbByte_ecode b s) (by simp [hf]) (by rw [absorbByte_fsm]; split <;> simp [hf])
  ecode_cause := by rw [absorbByte_ecode]; exact h.ecode_cause

theorem finalPad (hf : s.fsm ≠ .fault) : (finalPad s).Inv where
  buf_wf := wf_finalPad h.buf_wf
  rnd_zero _ := finalPad_rnd s
  fill_zero _ := finalPad_fill s
  len_bytes := by rw [finalPad_L]; exact h.len_bytes
  ecode_zero := h.ecode_zero_of_eq (finalPad_ecode s) hf (by rw [finalPad_fsm]; split <;> simp)
  ecode_cause := by rw [finalPad_ecode]; exact h.ecode_cause

theorem roundStep {b : Block} (hf : s.fsm = .busy b) : (roundStep b s).Inv := by
  obtain ⟨hL, hfill, hecode, -, -⟩ := roundStep_frame b s
  have hnf : s.fsm ≠ .fault := by simp [hf]
  refine ⟨wf_roundStep b h.buf_wf, fun hb => ?_, fun _ => hfill.trans (h.fill_zero (.inl (isBusy_eq_true.2 ⟨b, hf⟩))),
    hL ▸ h.len_bytes, h.ecode_zero_of_eq hecode hnf ?_, hecode ▸ h.ecode_cause⟩
  · by_cases hr : s.rnd = 63#6
    · rw [roundStep_last b hr, endOfBlock_rnd]
    · rw [roundStep_of_ne b hr] at hb
      simp [State.isBusy, hf] at hb
  · by_cases hr : s.rnd = 63#6
    · rw [roundStep_last b hr, endOfBlock_fsm]
      cases b <;> simp
    · rw [roundStep_of_ne b hr]
      exact hnf

theorem apply {e : Effect} (he : e.Enabled s) (q : List HostMove) : (e.apply { s with input := q }).Inv := by
  have hq := h.with_input q
  cases he with
  | none => exact hq
  | reset => exact resetAction _
  | round hf => exact hq.roundStep hf
  | raised hf => exact hq.raise _ hf
  | init hf => exact hq.initMessage (isErr_eq_false.1 (isErr_eq_false_of hf))
  | absorb hf => exact hq.absorbByte _ hf
  | final hf => exact hq.finalPad (by simp [hf])
  | read => exact hq.with_rdata _

end State.Inv

end Sys2Proof.Machine
end

section
/-! SUPPORT. When two engines stay in agreement through each effect of a step: on all that R31 and R99 let matter (`Agree`), and on
what the host sees (`SameView`, R33). -/

namespace Sys2Proof.Machine

open Sys2Proof

/-! ### What R31 and R99 let matter -/

namespace State.Agree

/-- No byte of the buffer is compared in an engine that is not BUSY and whose block is empty. -/
theorem not_compared_of_empty {s : State} (hb : s.isBusy = false) (h0 : s.fill = 0#6) (a : Addr) :
    ¬ (s.isBusy = true ∨ a.toNat < s.fill.toNat) := by
  simp [hb, h0]

variable {s t : State} (h : s.Agree t)
include h

theorem with_input (q : List HostMove) : ({ s with input := q } : State).Agree { t with input := q } :=
  ⟨h.H, h.L, h.fill, h.rnd, h.fsm, h.ecode, h.rdata, rfl, h.W, h.buf⟩

theorem with_rdata (v : Word) : ({ s with rdata := v } : State).Agree { t with rdata := v } :=
  ⟨h.H, h.L, h.fill, h.rnd, h.fsm, h.ecode, rfl, h.input, h.W, h.buf⟩

theorem raise (c : Cause) : (raise c s).Agree (raise c t) :=
  ⟨h.H, h.L, h.fill, h.rnd, rfl, rfl, h.rdata, h.input, nofun, fun a ha => h.buf a (.inr (by simpa [State.isBusy] using ha))⟩

/-- R128: the free values a reset draws are not read before they are written. -/
theorem resetAction : (resetAction s).Agree (resetAction t) :=
  ⟨rfl, rfl, rfl, rfl, rfl, rfl, rfl, h.input, nofun, fun a ha => absurd ha (not_compared_of_empty rfl rfl a)⟩

theorem initMessage : (initMessage s).Agree (initMessage t) :=
  ⟨rfl, rfl, rfl, rfl, rfl, h.ecode, h.rdata, h.input, nofun, fun a ha => absurd ha (not_compared_of_empty rfl rfl a)⟩

/-- R67: ABSORB writes the first byte not yet written, and the 64th byte leaves none. -/
theorem absorbByte (b : Byte) (hf : s.fsm = .idle) : (absorbByte b s).Agree (absorbByte b t) := by
  constructor
  case W =>
    intro hb
    by_cases h63 : s.fill = 63#6
    · simp [h63, ← h.fill, h.H]
    · simp [State.isBusy, h63, hf] at hb
  case buf =>
    intro a ha
    have hle : a.toNat ≤ s.fill.toNat := by
      by_cases h63 : s.fill = 63#6
      · have := a.isLt
        simp only [h63, BitVec.toNat_ofNat]
        omega
      · have ha' : a.toNat < (s.fill + 1#6).toNat := by simpa [State.isBusy, h63, hf] using ha
        rw [BitVec.toNat_add, BitVec.toNat_ofNat] at ha'
        omega
    rw [absorbByte_buf, absorbByte_buf, Memory.read_write, Memory.read_write, ← h.fill]
    by_cases hfill : a = s.fill
    · rw [if_pos hfill, if_pos hfill]
    · rw [if_neg hfill, if_neg hfill]
      exact h.buf a (.inr (by rw [← BitVec.toNat_inj] at hfill; omega))
  all_goals simp [h.H, h.L, h.fill, h.rnd, h.fsm, h.ecode, h.rdata, h.input]

/-- R69: FINAL overwrites every byte not yet written. -/
theorem finalPad : (finalPad s).Agree (finalPad t) := by
  constructor
  case buf =>
    intro a _
    rw [read_finalPad, read_finalPad, ← h.fill, ← h.L]
    by_cases ha : a.toNat < s.fill.toNat
    · rw [if_pos ha, if_pos ha, h.buf a (.inr ha)]
    · rw [if_neg ha, if_neg ha]
  all_goals simp [h.H, h.L, h.fill, h.ecode, h.rdata, h.input]
/-- R99: a compression reads W and the whole buffer, which agree while BUSY. -/
theorem roundStep {b : Block} (hf : s.fsm = .busy b) : (roundStep b s).Agree (roundStep b t) := by
  have hb : s.isBusy = true := isBusy_eq_true.2 ⟨b, hf⟩
  have hbuf : ∀ a, s.buf.read a = t.buf.read a := fun a => h.buf a (.inl hb)
  have hword : messageWord s.buf = messageWord t.buf := funext (messageWord_congr hbuf)
  by_cases hr : s.rnd = 63#6
  · have hr' : t.rnd = 63#6 := h.rnd ▸ hr
    have hlast : lastWords s = lastWords t := by rw [lastWords, lastWords, h.W hb, hword]
    have hadd : s.H.add (lastWords s) = t.H.add (lastWords t) := by rw [h.H, hlast]
    cases b with
    | comp =>
      rw [roundStep_last_comp hr, roundStep_last_comp hr']
      exact ⟨hadd, h.L, h.fill, rfl, rfl, h.ecode, h.rdata, h.input, fun _ => hlast, fun a _ => hbuf a⟩
    | compLast =>
      rw [roundStep_last_compLast hr, roundStep_last_compLast hr']
      exact ⟨hadd, h.L, h.fill, rfl, rfl, h.ecode, h.rdata, h.input, fun _ => hlast, fun a _ => hbuf a⟩
    | compPad =>
      rw [roundStep_last_compPad hr, roundStep_last_compPad hr']
      exact ⟨hadd, h.L, h.fill, rfl, rfl, h.ecode, h.rdata, h.input, fun _ => hadd, fun a _ => by
        rw [read_lengthBlock, read_lengthBlock, h.L]⟩
  · rw [roundStep_of_ne b hr, roundStep_of_ne b (h.rnd ▸ hr)]
    refine ⟨h.H, h.L, h.fill, ?_, h.fsm, h.ecode, h.rdata, h.input, fun _ => ?_, fun a _ => hbuf a⟩
    · simp only [h.rnd]
    · simp only [h.rnd, h.W hb, hword]

theorem apply {e : Effect} (he : e.Enabled s) (q : List HostMove) :
    (e.apply { s with input := q }).Agree (e.apply { t with input := q }) := by
  have hq := h.with_input q
  cases he with
  | none => exact hq
  | reset => exact hq.resetAction
  | round hf => exact hq.roundStep hf
  | raised => exact hq.raise _
  | init => exact hq.initMessage
  | absorb hf => exact hq.absorbByte _ hf
  | final => exact hq.finalPad
  | read => simpa only [Effect.apply, h.H] using hq.with_rdata _

end State.Agree

/-! ### What the host sees -/

namespace State.SameView

variable {s t : State} (h : s.SameView t)
include h

theorem ports : s.ports = t.ports := by
  obtain ⟨hfill, hrnd, hfsm, hecode, hrdata, -⟩ := h
  simp only [State.ports, State.cmdReady, State.status, State.isBusy, State.isDone, State.isErr, hfill, hrnd, hfsm, hecode,
    hrdata]

theorem with_input (q : List HostMove) : ({ s with input := q } : State).SameView { t with input := q } :=
  ⟨h.fill, h.rnd, h.fsm, h.ecode, h.rdata, rfl⟩

theorem resetAction : (resetAction s).SameView (resetAction t) := ⟨rfl, rfl, rfl, rfl, rfl, h.input⟩

theorem raise (c : Cause) : (raise c s).SameView (raise c t) := ⟨h.fill, h.rnd, rfl, rfl, h.rdata, h.input⟩

theorem initMessage : (initMessage s).SameView (initMessage t) := ⟨rfl, rfl, rfl, h.ecode, h.rdata, h.input⟩

theorem absorbByte (b : Byte) : (absorbByte b s).SameView (absorbByte b t) := by
  constructor <;> simp [h.fill, h.rnd, h.fsm, h.ecode, h.rdata, h.input]

theorem finalPad : (finalPad s).SameView (finalPad t) := by
  constructor <;> simp [h.fill, h.ecode, h.rdata, h.input]

theorem roundStep (b : Block) : (roundStep b s).SameView (roundStep b t) := by
  obtain ⟨-, hfill, hecode, hrdata, hinput⟩ := roundStep_frame b s
  obtain ⟨-, hfill', hecode', hrdata', hinput'⟩ := roundStep_frame b t
  have hctl : (Machine.roundStep b s).rnd = (Machine.roundStep b t).rnd ∧
      (Machine.roundStep b s).fsm = (Machine.roundStep b t).fsm := by
    by_cases hr : s.rnd = 63#6
    · rw [roundStep_last b hr, roundStep_last b (h.rnd ▸ hr)]
      simp only [endOfBlock_rnd, endOfBlock_fsm, and_self]
    · rw [roundStep_of_ne b hr, roundStep_of_ne b (h.rnd ▸ hr)]
      simp only [h.rnd, h.fsm, and_self]
  exact ⟨by rw [hfill, hfill', h.fill], hctl.1, hctl.2, by rw [hecode, hecode', h.ecode], by rw [hrdata, hrdata', h.rdata],
    by rw [hinput, hinput', h.input]⟩

/-- R33: only a read in DONE brings H to the ports. -/
theorem apply {e : Effect} (he : e.Enabled s) (hf : s.fsm ≠ .done) (q : List HostMove) :
    (e.apply { s with input := q }).SameView (e.apply { t with input := q }) := by
  have hq := h.with_input q
  cases he with
  | none => exact hq
  | reset => exact hq.resetAction
  | round => exact hq.roundStep _
  | raised => exact hq.raise _
  | init => exact hq.initMessage
  | absorb => exact hq.absorbByte _
  | final => exact hq.finalPad
  | read hd => exact absurd hd hf

end State.SameView

end Sys2Proof.Machine
end

section
/-! SUPPORT. The STATUS word as a number (R22), and what a round leaves of the buffer and of the FSM state (R31). -/

namespace Sys2Proof.Machine

open Sys2Proof

/-! ### STATUS -/

/-- Concatenation of fields, as a sum. -/
theorem toNat_append_eq_add {m n : Nat} (x : BitVec m) (y : BitVec n) : (x ++ y).toNat = x.toNat * 2 ^ n + y.toNat := by
  rw [BitVec.toNat_append, ← Nat.shiftLeft_add_eq_or_of_lt y.isLt, Nat.shiftLeft_eq]

theorem status_toNat (s : State) :
    s.status.toNat = s.isBusy.toNat + 2 * s.isDone.toNat + 4 * s.isErr.toNat + 2 ^ 4 * s.ecode.toNat + 2 ^ 8 * s.fill.toNat
      + 2 ^ 16 * s.fsm.code.toNat + 2 ^ 24 * s.rnd.toNat := by
  simp only [State.status, toNat_append_eq_add, BitVec.toNat_ofBool, BitVec.toNat_ofNat]
  omega

theorem Fsm.code_injective : Function.Injective Fsm.code := by
  intro f g h
  revert h
  rcases f with _ | (_ | _ | _) | _ | _ <;> rcases g with _ | (_ | _ | _) | _ | _ <;> decide

theorem isBusy_iff_code {s : State} : s.isBusy = true ↔ s.fsm.code = 1#3 ∨ s.fsm.code = 2#3 ∨ s.fsm.code = 3#3 := by
  unfold State.isBusy
  rcases s.fsm with _ | (_ | _ | _) | _ | _ <;> decide

/-! ### What a round leaves -/

theorem roundStep_fsm_of_ne {s : State} (b : Block) (h : s.rnd ≠ 63#6) : (roundStep b s).fsm = s.fsm := by
  rw [roundStep_of_ne b h]

theorem roundStep_H_of_ne {s : State} (b : Block) (h : s.rnd ≠ 63#6) : (roundStep b s).H = s.H := by
  rw [roundStep_of_ne b h]

/-- R72: only the end of a COMP_PAD block loads the buffer. -/
theorem roundStep_buf_of_ne {s : State} {b : Block} (h : ¬ (b = .compPad ∧ s.rnd = 63#6)) :
    (roundStep b s).buf = s.buf := by
  by_cases hr : s.rnd = 63#6
  · rw [roundStep_last b hr]
    cases b with
    | comp => rfl
    | compLast => rfl
    | compPad => exact absurd ⟨rfl, hr⟩ h
  · rw [roundStep_of_ne b hr]

/-- R67: a byte of the buffer that ABSORB changes is the one at fill. -/
theorem eq_fill_of_absorbByte_ne {s : State} {b : Byte} {a : Addr} (h : (absorbByte b s).buf.read a ≠ s.buf.read a) :
    a = s.fill := by
  by_contra hne
  exact h (by rw [absorbByte_buf, Memory.read_write_other _ _ hne])

/-- R69: a byte of the buffer that FINAL changes lies at fill or after it. -/
theorem fill_le_of_finalPad_ne {s : State} {a : Addr} (h : (finalPad s).buf.read a ≠ s.buf.read a) :
    s.fill.toNat ≤ a.toNat := by
  by_contra hlt
  exact h (by rw [read_finalPad, if_pos (by omega)])

end Sys2Proof.Machine
end

section
/-! PROOF. The statements of 10_state.md: what R29's invariant, R31's access table and R33's visibility say of every step. -/

open Sys2Proof Sys2Proof.Machine

/-- Settles O46: every effect a step can have keeps the invariant. -/
theorem everyStepKeepsInvariant : Obligations.EveryStepKeepsInvariant := by
  unfold Obligations.EveryStepKeepsInvariant
  intro s t hs h
  obtain ⟨e, q, he, rfl⟩ := step_effect_of h
  exact hs.apply he q

/-- Settles O47: agreeing engines take steps of the same effect, which keeps the agreement. -/
theorem unspecifiedValuesNeverMatter : Obligations.UnspecifiedValuesNeverMatter := by
  unfold Obligations.UnspecifiedValuesNeverMatter
  intro s s' t hs h
  exact step_simulation hs.fsm hs.input (fun _ q he => hs.apply he q) h

/-- Settles O27: NOP and INIT leave the state or start a message, and raise nothing. -/
theorem nopInitFrame : Obligations.NopInitFrame := by
  unfold Obligations.NopInitFrame
  rintro i s t hi h
  cases exec_cases h with
  | same _ ht => subst ht; simp
  | init hi' _ ht => subst hi' ht; simp
  | absorb b hi' => simp [hi'] at hi
  | final hi' => simp [hi'] at hi
  | read v hi' => obtain ⟨x, rfl | rfl | rfl⟩ := hi' <;> simp at hi
  | raised c hi' => exact absurd hi (not_or.2 hi')

/-- Settles O28, by what ABSORB and FINAL can do: nothing, their effect in IDLE, or a fault. -/
theorem absorbFinalFrame : Obligations.AbsorbFinalFrame := by
  unfold Obligations.AbsorbFinalFrame
  intro i s t hi h
  cases exec_cases h with
  | same _ ht => subst ht; simp
  | init hi' => simp [hi'] at hi
  | absorb b hi' hf ht =>
    subst hi' ht
    refine ⟨by simp, by simp, by simp, nofun, ?_, by simp, fun a ha => ?_, fun _ a ha => ?_, fun hne => absurd hf hne⟩
    · by_cases h63 : s.fill = 63#6 <;> simp [State.isBusy, h63, hf]
    · by_contra hne
      rw [eq_fill_of_absorbByte_ne hne] at ha
      omega
    · by_contra hne
      exact ha (eq_fill_of_absorbByte_ne hne)
  | final hi' hf ht =>
    subst hi' ht
    refine ⟨by simp, by simp, by simp, by simp, ?_, by simp, fun a ha => ?_, by simp, fun hne => absurd hf hne⟩
    · simp [finalPad_isBusy, isBusy_eq_false.2 (.inl hf)]
    · by_contra hne
      have := fill_le_of_finalPad_ne hne
      omega
  | read v hi' => obtain ⟨x, rfl | rfl | rfl⟩ := hi' <;> simp at hi
  | raised c _ _ _ ht =>
    subst ht
    simp [State.isErr]

/-- Settles O29, by what a read can do: nothing, its value in DONE, or one of its two faults. -/
theorem readFrame : Obligations.ReadFrame := by
  unfold Obligations.ReadFrame
  intro i s t hi h
  cases exec_cases h with
  | same _ ht => subst ht; simp
  | init hi' => simp [hi'] at hi
  | absorb b hi' => simp [hi'] at hi
  | final hi' => simp [hi'] at hi
  | read v _ hf ht => subst ht; simp [hf]
  | raised c _ _ hc ht =>
    subst ht
    refine ⟨fun _ => rfl, .inr ⟨rfl, ?_⟩⟩
    rcases hc hi with rfl | rfl
    · exact .inl rfl
    · exact .inr rfl

/-- Settles O43, row by row of the table: what each effect of a step leaves unchanged. -/
theorem onlyTheAccessTableWrites : Obligations.OnlyTheAccessTableWrites := by
  unfold Obligations.OnlyTheAccessTableWrites
  intro s t h
  obtain ⟨e, q, he, rfl⟩ := step_effect_of h
  cases he with
  | none => simp [Effect.apply]
  | reset hr => simp [hr]
  | @round b hf =>
    have hb : s.isBusy = true := isBusy_eq_true.2 ⟨b, hf⟩
    obtain ⟨hL, hfill, hecode, hrdata, -⟩ := roundStep_frame b { s with input := q }
    refine ⟨fun hne => .inr (.inr ⟨hb, ?_⟩), fun _ => .inr (.inl hb), fun a hne => .inr (.inr (.inr ?_)), absurd hL,
      absurd hfill, fun _ => .inr (.inl hb), fun hne => ?_, absurd hecode, absurd hrdata⟩
    · exact not_imp_comm.1 (roundStep_H_of_ne (s := { s with input := q }) b) hne
    · obtain ⟨rfl, hr⟩ := not_imp_comm.1 (roundStep_buf_of_ne (s := { s with input := q }) (b := b))
        fun hbuf => hne (congrArg (Memory.read · a) hbuf)
      exact ⟨hf, hr⟩
    · have hr := not_imp_comm.1 (roundStep_fsm_of_ne (s := { s with input := q }) b) hne
      exact .inr (.inr (.inr (.inr (.inr ⟨hb, hr⟩))))
  | raised hf => simp [Effect.apply, hf]
  | init _ ha => simp [Effect.apply, ha]
  | @absorb b _ ha =>
    have hex : ∃ b, s.Accepts (.absorb b) := ⟨b, ha⟩
    have hW : s.fill ≠ 63#6 → (absorbByte b { s with input := q }).W = s.W := by simp +contextual
    refine ⟨absurd (absorbByte_H b _), fun hne => .inr (.inr (.inl ⟨b, ha, not_imp_comm.1 hW hne⟩)), fun a hne => ?_,
      by simp [hex], by simp [hex], by simp [hex], by simp [hex], absurd (absorbByte_ecode b _),
      absurd (absorbByte_rdata b _)⟩
    exact .inr (.inl ⟨b, ha, eq_fill_of_absorbByte_ne (s := { s with input := q }) hne⟩)
  | final _ ha =>
    refine ⟨absurd (finalPad_H _), by simp [ha], fun a hne => ?_, absurd (finalPad_L _), by simp [ha], by simp [ha],
      by simp [ha], absurd (finalPad_ecode _), absurd (finalPad_rdata _)⟩
    exact .inr (.inr (.inl ⟨ha, fill_le_of_finalPad_ne (s := { s with input := q }) hne⟩))
  | read hf hi ha =>
    have hread : ∃ x, s.Accepts (.rdword x) ∨ s.Accepts (.rdbyte x) ∨ s.Accepts (.rdhex x) := by
      obtain ⟨x, rfl | rfl | rfl⟩ := hi <;> exact ⟨x, by simp [ha]⟩
    simp [Effect.apply, hf, hread]

/-- Settles O44: the effects that are left in DONE are a read, a fault and none. -/
theorem digestStaysUntilInitOrReset : Obligations.DigestStaysUntilInitOrReset := by
  unfold Obligations.DigestStaysUntilInitOrReset
  intro s t h hd hr hi
  obtain ⟨e, q, he, rfl⟩ := step_effect_of h
  cases he with
  | none => exact ⟨rfl, .inl hd⟩
  | reset hreset => exact absurd hreset hr
  | round hf => simp [hd] at hf
  | raised => exact ⟨rfl, .inr rfl⟩
  | init _ ha => exact absurd ha hi
  | absorb hf => simp [hd] at hf
  | final hf => simp [hd] at hf
  | read => exact ⟨rfl, .inl hd⟩

/-- Settles O48: the effect is the same for both engines, and outside DONE it is no read. -/
theorem chainingValueIsNotObservable : Obligations.ChainingValueIsNotObservable := by
  unfold Obligations.ChainingValueIsNotObservable
  refine ⟨fun s s' hs => hs.ports, fun s s' t hs hf h => ?_⟩
  exact step_simulation hs.fsm hs.input (fun _ q he => hs.apply he hf q) h

/-- Settles O52: at the 64th byte of a block through the 64 rounds of its compression. -/
theorem absorbExtendsMessage : Obligations.AbsorbExtendsMessage := by
  unfold Obligations.AbsorbExtendsMessage
  intro s m b hs hr
  exact ⟨_, exec_absorb_idle hs.idle b, absorbByte_ecode b s, absorbByte_input b s, hs.absorbByte_of_lt b,
    fun hm => hs.run_absorbByte_of_eq b hm hr⟩

/-- Settles O12: every clause is about the one state after reset. -/
theorem resetStateValues : Obligations.ResetStateValues := by
  unfold Obligations.ResetStateValues
  decide

/-- Settles O41: STATUS is a concatenation of fields, and the FSM states have different encodings. -/
theorem statusWordLayout : Obligations.StatusWordLayout := by
  unfold Obligations.StatusWordLayout
  intro s
  have code (f : Fsm) : s.fsm = f ↔ s.fsm.code = f.code := Fsm.code_injective.eq_iff.symm
  exact ⟨status_toNat s, isBusy_iff_code, isDone_eq_true.trans (code .done), isErr_eq_true.trans (code .fault),
    by simp [State.cmdReady], code .idle, code (.busy .comp), code (.busy .compPad), code (.busy .compLast), code .done,
    code .fault⟩

/-- Settles O45: the reset values. -/
theorem invariantHoldsAtReset : Obligations.InvariantHoldsAtReset := by
  unfold Obligations.InvariantHoldsAtReset
  exact State.Inv.reset
end

section
/-! SUPPORT. The bytes of a message word (R38), a read command in DONE as a function of H (R101, R102, R104), and a step of a
platform's engine as a function of the platform (R50). -/

namespace Sys2Proof.Machine

open Sys2Proof

/-! ### Message words -/

theorem getLsbD_byteAt {n : Nat} (v : BitVec n) (j i : Nat) :
    (byteAt v j).getLsbD i = (decide (i < 8) && v.getLsbD (8 * j + i)) := by
  simp [byteAt]

/-- R38: byte j of message word k lies at address 4k + j. -/
theorem byteAt_messageWord (m : Memory) (k : BitVec 4) {j : Nat} (hj : j < 4) :
    byteAt (messageWord m k) j = m.read (BitVec.ofNat 6 (4 * k.toNat + j)) := by
  have h0 := (m.read (BitVec.ofNat 6 (4 * k.toNat))).isLt
  have h1 := (m.read (BitVec.ofNat 6 (4 * k.toNat + 1))).isLt
  have h2 := (m.read (BitVec.ofNat 6 (4 * k.toNat + 2))).isLt
  have h3 := (m.read (BitVec.ofNat 6 (4 * k.toNat + 3))).isLt
  apply BitVec.eq_of_toNat_eq
  rw [byteAt_eq_ofNat, BitVec.toNat_ofNat, messageWord_toNat]
  match j, hj with
  | 0, _ => simp only [Nat.add_zero]; omega
  | 1, _ => omega
  | 2, _ => omega
  | 3, _ => omega

/-- R41: the byte at an address, as a byte of the message word it lies in. -/
theorem read_eq_byteAt_messageWord (m : Memory) (a : Addr) :
    m.read a = byteAt (messageWord m (BitVec.ofNat 4 (a.toNat / 4))) (a.toNat % 4) := by
  have haddr : 4 * (BitVec.ofNat 4 (a.toNat / 4)).toNat + a.toNat % 4 = a.toNat := by
    rw [BitVec.toNat_ofNat]; omega
  rw [byteAt_messageWord m _ (Nat.mod_lt _ (by decide)), haddr, BitVec.ofNat_toNat, BitVec.setWidth_eq]

/-! ### Reads in DONE -/

/-- R101, R102, R104: a well-formed read completes in DONE, and what it puts into RDATA is a function of H alone. -/
theorem exec_read_done {i : Instr} (hi : Instr.IsRead i) (hw : i.wf = true) :
    ∃ value : Words4 → Word, ∀ s : State, s.fsm = .done → exec i s = .next { s with rdata := value s.H } := by
  have complete {n : Nat} {x : Byte} (hx : decide (x.toNat ≤ n) = true) (v : Word) {s : State} (h : s.fsm = .done) :
      readCommand n x v s = { s with rdata := v } := by
    rw [readCommand_done h, if_neg (Nat.not_lt.2 (of_decide_eq_true hx))]
  obtain ⟨x, rfl | rfl | rfl⟩ := hi
  · exact ⟨fun H => H.word (x.setWidth 2), fun s h => congrArg _ (complete hw _ h)⟩
  · exact ⟨fun H => (digestByte H (x.setWidth 4)).setWidth 32, fun s h => congrArg _ (complete hw _ h)⟩
  · exact ⟨fun H => (hexChar (digestNibble H (x.setWidth 5))).setWidth 32, fun s h => congrArg _ (complete hw _ h)⟩

/-! ### Engines of a platform -/

/-- No step of an engine stops: it has some effect. -/
theorem exists_step_eq_next (s : State) : ∃ t, step s = .next t := by
  obtain ⟨e, q, _, h⟩ := step_effect s
  exact ⟨_, h s rfl rfl⟩

/-- R50: where `next` is the step of every engine, a step of engine `i` applies it at `i` and nowhere else. -/
theorem stepEngine_eq_modify {next : State → State} (hnext : ∀ s, step s = .next (next s)) (p : Platform) (i : Nat) :
    p.stepEngine i = .next ⟨p.engines.modify i next⟩ := by
  rw [Platform.stepEngine, List.modify_eq_set_getElem?]
  cases p.engines[i]? with
  | none => rfl
  | some s => simp only [hnext]; rfl

end Sys2Proof.Machine
end

section
/-! PROOF. The statements of 20_memory.md: the block buffer and its message words (R36, R38, R41), repeated reads (R44), and the
engines of a platform (R50). -/

open Sys2Proof Sys2Proof.Machine

/-- Settles O23, by the buffer's read-after-write, well-formedness and extensionality laws. -/
theorem bufferReadAfterWrite : Obligations.BufferReadAfterWrite := by
  unfold Obligations.BufferReadAfterWrite
  exact ⟨fun m a c v => Memory.read_write m a c v, fun m a v hm => Memory.wf_write a v hm,
    fun m m' hm hm' hread => Memory.eq_of_read_eq hm hm' hread⟩

/-- Settles O24: the byte at `a` is byte `a mod 4` of message word `a div 4`. -/
theorem messageWordsAreLittleEndian : Obligations.MessageWordsAreLittleEndian := by
  unfold Obligations.MessageWordsAreLittleEndian
  intro m a i hi
  rw [read_eq_byteAt_messageWord m a, getLsbD_byteAt, decide_eq_true hi, Bool.true_and]

/-- Settles O33: a read in DONE writes RDATA alone, with a value that depends on H alone. -/
theorem readsAreIdempotent : Obligations.ReadsAreIdempotent := by
  unfold Obligations.ReadsAreIdempotent
  intro i j s hs hwi hwj hi hj
  obtain ⟨vi, hvi⟩ := exec_read_done hi hwi
  obtain ⟨vj, hvj⟩ := exec_read_done hj hwj
  exact ⟨{ s with rdata := vi s.H }, { s with rdata := vj s.H }, hvi s hs, hvi _ hs, hvj _ hs, hvi _ hs,
    rfl, hs, rfl, hs⟩

/-- Settles O57: a step of engine `i` modifies position `i` of the list of engines, and modifications of different positions
commute. -/
theorem enginesAreIndependent : Obligations.EnginesAreIndependent := by
  unfold Obligations.EnginesAreIndependent
  choose next hnext using exists_step_eq_next
  have hstep := stepEngine_eq_modify hnext
  refine ⟨fun p i s t hs ht => ?_, fun p i hi => ?_, fun p q i j hq hne => ?_, fun p q r i j hne hq hr => ?_,
    fun p i => ⟨_, hstep p i⟩⟩
  · simp only [Platform.stepEngine, hs, ht]
  · simp only [Platform.stepEngine, hi]
  · rw [hstep] at hq
    cases hq
    exact List.getElem?_modify_ne _ _ (Ne.symm hne)
  · rw [hstep] at hq
    cases hq
    rw [hstep] at hr
    cases hr
    exact ⟨_, hstep p j, by rw [hstep, List.modify_modify_ne _ _ _ hne]⟩
end

section
/-! SUPPORT. The decoder's verdict by the numbers of a word's fields (R59), its inverse on the well-formed instructions
(R53 to R55), the list of those, the rows of the opcode table (R54), the assembler as the encoder of its commands (R60), and
runs that are over (R138). -/

namespace Sys2Proof.Machine

open Sys2Proof

/-! ### The verdict of a word, by numbers -/

/-- R56, R57, R111: a reserved opcode, a nonzero `rsv`, or a nonzero `imm8` on NOP, INIT or FINAL. -/
def IllegalWord (w : Cmd) : Prop :=
  7 ≤ w.toNat / 4096 ∨ w.toNat / 256 % 16 ≠ 0 ∨
    ((w.toNat / 4096 = 0 ∨ w.toNat / 4096 = 1 ∨ w.toNat / 4096 = 3) ∧ w.toNat % 256 ≠ 0)

/-- R112: a read command's index above its range. -/
def OutOfRangeWord (w : Cmd) : Prop :=
  (w.toNat / 4096 = 4 ∧ 3 < w.toNat % 256) ∨ (w.toNat / 4096 = 5 ∧ 15 < w.toNat % 256) ∨
    (w.toNat / 4096 = 6 ∧ 31 < w.toNat % 256)

theorem rsvField_eq_zero {w : Cmd} : rsvField w = 0#4 ↔ w.toNat / 256 % 16 = 0 := by
  rw [← BitVec.toNat_inj, rsvField_toNat]; rfl

theorem immField_eq_zero {w : Cmd} : immField w = 0#8 ↔ w.toNat % 256 = 0 := by
  rw [← BitVec.toNat_inj, immField_toNat]; rfl

theorem immField_eq_ofNat (w : Cmd) : immField w = BitVec.ofNat 8 (w.toNat % 256) := by
  rw [← immField_toNat, BitVec.ofNat_toNat, BitVec.setWidth_eq]

section
variable {w : Cmd}

theorem decode_of_illegal (h : IllegalWord w) : decode w = .error .illegalCommand := by
  unfold IllegalWord at h
  simp only [decode, opField_toNat, ne_eq, rsvField_eq_zero, immField_eq_zero]
  by_cases hfields : 7 ≤ w.toNat / 4096 ∨ ¬ w.toNat / 256 % 16 = 0
  · rw [if_pos hfields]
  · rw [if_neg hfields, if_pos (by omega)]

theorem decode_of_outOfRange (hl : ¬ IllegalWord w) (h : OutOfRangeWord w) : decode w = .error .operandRange := by
  unfold IllegalWord at hl
  simp only [decode, opField_toNat, immField_toNat, ne_eq, rsvField_eq_zero, immField_eq_zero]
  rw [if_neg (by omega), if_neg (by omega)]
  rcases h with h | h | h
  · rw [if_pos h]
  · rw [if_neg (by omega), if_pos h]
  · rw [if_neg (by omega), if_neg (by omega), if_pos h]

theorem decode_of_legal (hl : ¬ IllegalWord w) (hr : ¬ OutOfRangeWord w) :
    decode w = commandOf (opField w) (immField w) := by
  unfold IllegalWord at hl
  unfold OutOfRangeWord at hr
  simp only [decode, opField_toNat, immField_toNat, ne_eq, rsvField_eq_zero, immField_eq_zero]
  rw [if_neg (by omega), if_neg (by omega), if_neg (by omega), if_neg (by omega), if_neg (by omega)]

/-- A legal word in range is the encoding of the well-formed command it decodes to. -/
theorem exists_decode_of_legal (hl : ¬ IllegalWord w) (hr : ¬ OutOfRangeWord w) :
    ∃ i : Instr, decode w = .command i ∧ i.wf = true ∧ w = encode i := by
  have verdict {i : Instr} (hc : commandOf (opField w) (immField w) = .command i) (hi : i.wf = true)
      (he : w.toNat = (encode i).toNat) : ∃ i : Instr, decode w = .command i ∧ i.wf = true ∧ w = encode i :=
    ⟨i, (decode_of_legal hl hr).trans hc, hi, BitVec.eq_of_toNat_eq he⟩
  have hop : (opField w).toNat = w.toNat / 4096 := opField_toNat w
  have himm : (immField w).toNat = w.toNat % 256 := immField_toNat w
  unfold IllegalWord at hl
  unfold OutOfRangeWord at hr
  obtain h | h | h | h | h | h | h : (opField w).toNat = 0 ∨ (opField w).toNat = 1 ∨ (opField w).toNat = 2 ∨
      (opField w).toNat = 3 ∨ (opField w).toNat = 4 ∨ (opField w).toNat = 5 ∨ (opField w).toNat = 6 := by omega
  · exact verdict (i := .nop) (by simp [commandOf, h]) rfl (by simp only [encode_toNat]; omega)
  · exact verdict (i := .init) (by simp [commandOf, h]) rfl (by simp only [encode_toNat]; omega)
  · exact verdict (i := .absorb (immField w)) (by simp [commandOf, h]) rfl (by simp only [encode_toNat]; omega)
  · exact verdict (i := .final) (by simp [commandOf, h]) rfl (by simp only [encode_toNat]; omega)
  · exact verdict (i := .rdword (immField w)) (by simp [commandOf, h]) (decide_eq_true (by omega))
      (by simp only [encode_toNat]; omega)
  · exact verdict (i := .rdbyte (immField w)) (by simp [commandOf, h]) (decide_eq_true (by omega))
      (by simp only [encode_toNat]; omega)
  · exact verdict (i := .rdhex (immField w)) (by simp [commandOf, h]) (decide_eq_true (by omega))
      (by simp only [encode_toNat]; omega)

/-- Exactly one of the three verdicts of R59. -/
theorem decode_cases (w : Cmd) :
    (IllegalWord w ∧ decode w = .error .illegalCommand) ∨
    (¬ IllegalWord w ∧ OutOfRangeWord w ∧ decode w = .error .operandRange) ∨
    (¬ IllegalWord w ∧ ¬ OutOfRangeWord w ∧ ∃ i : Instr, decode w = .command i ∧ i.wf = true ∧ w = encode i) := by
  by_cases hl : IllegalWord w
  · exact .inl ⟨hl, decode_of_illegal hl⟩
  · by_cases hr : OutOfRangeWord w
    · exact .inr (.inl ⟨hl, hr, decode_of_outOfRange hl hr⟩)
    · exact .inr (.inr ⟨hl, hr, exists_decode_of_legal hl hr⟩)
end

/-- R53, R55, R59: the decoder is the encoder's inverse. -/
theorem decode_eq_command {w : Cmd} {i : Instr} : decode w = .command i ↔ i.wf = true ∧ w = encode i := by
  constructor
  · intro h
    obtain ⟨_, he⟩ | ⟨_, _, he⟩ | ⟨_, _, j, hj, hwf, hw⟩ := decode_cases w
    · exact absurd (h.symm.trans he) (by simp)
    · exact absurd (h.symm.trans he) (by simp)
    · cases h.symm.trans hj
      exact ⟨hwf, hw⟩
  · rintro ⟨hwf, rfl⟩
    exact decode_encode hwf

theorem decode_eq_illegal {w : Cmd} : decode w = .error .illegalCommand ↔ IllegalWord w := by
  obtain ⟨hl, hd⟩ | ⟨hl, _, hd⟩ | ⟨hl, _, i, hd, _⟩ := decode_cases w <;> simp [hl, hd]

theorem decode_eq_operandRange {w : Cmd} : decode w = .error .operandRange ↔ ¬ IllegalWord w ∧ OutOfRangeWord w := by
  obtain ⟨hl, hd⟩ | ⟨hl, hr, hd⟩ | ⟨hl, hr, i, hd, _⟩ := decode_cases w
  · simp [hl, hd]
  · simp [hl, hr, hd]
  · simp [hr, hd]

/-! ### The list of the commands -/

/-- The operands up to a bound. -/
def operandsUpTo (n : Nat) : List Byte := (List.range (n + 1)).map (BitVec.ofNat 8)

theorem mem_operandsUpTo {n : Nat} (hn : n ≤ 255) {x : Byte} : x ∈ operandsUpTo n ↔ x.toNat ≤ n := by
  constructor
  · intro hx
    obtain ⟨k, hk, rfl⟩ := List.mem_map.1 hx
    rw [List.mem_range] at hk
    rw [BitVec.toNat_ofNat]
    omega
  · intro hx
    exact List.mem_map.2 ⟨x.toNat, List.mem_range.2 (by omega), by simp⟩

theorem operandsUpTo_nodup {n : Nat} (hn : n ≤ 255) : (operandsUpTo n).Nodup := by
  refine List.Nodup.map_on (fun j hj k hk hjk => ?_) List.nodup_range
  rw [List.mem_range] at hj hk
  have heq := congrArg BitVec.toNat hjk
  rw [BitVec.toNat_ofNat, BitVec.toNat_ofNat] at heq
  omega

@[simp] theorem operandsUpTo_length (n : Nat) : (operandsUpTo n).length = n + 1 := by
  simp [operandsUpTo]

/-- The well-formed instructions, row by row of the opcode table (R54). -/
def wellFormedInstrs : List Instr :=
  [.nop, .init, .final] ++ (operandsUpTo 255).map .absorb ++ (operandsUpTo 3).map .rdword ++
    (operandsUpTo 15).map .rdbyte ++ (operandsUpTo 31).map .rdhex

theorem mem_wellFormedInstrs (i : Instr) : i ∈ wellFormedInstrs ↔ i.wf = true := by
  cases i with
  | absorb b => simpa [wellFormedInstrs, Instr.wf, mem_operandsUpTo] using Nat.le_of_lt_succ b.isLt
  | _ => simp [wellFormedInstrs, Instr.wf, mem_operandsUpTo]

theorem wellFormedInstrs_nodup : wellFormedInstrs.Nodup := by
  have hmap {n : Nat} (hn : n ≤ 255) {f : Byte → Instr} (hf : Function.Injective f) : ((operandsUpTo n).map f).Nodup :=
    (operandsUpTo_nodup hn).map hf
  have habsorb := hmap (n := 255) (by decide) (f := .absorb) (fun _ _ => Instr.absorb.inj)
  have hrdword := hmap (n := 3) (by decide) (f := .rdword) (fun _ _ => Instr.rdword.inj)
  have hrdbyte := hmap (n := 15) (by decide) (f := .rdbyte) (fun _ _ => Instr.rdbyte.inj)
  have hrdhex := hmap (n := 31) (by decide) (f := .rdhex) (fun _ _ => Instr.rdhex.inj)
  simp [wellFormedInstrs, List.nodup_append, or_imp, forall_and, habsorb, hrdword, hrdbyte, hrdhex]

/-- The words of the well-formed instructions. -/
def commandWords : List Cmd := wellFormedInstrs.map encode

theorem mem_commandWords (w : Cmd) : w ∈ commandWords ↔ ∃ i, decode w = .command i := by
  simp only [commandWords, List.mem_map, mem_wellFormedInstrs, decode_eq_command, @eq_comm _ w]

theorem encode_injective {i j : Instr} (hi : i.wf = true) (hj : j.wf = true) (h : encode i = encode j) : i = j :=
  Verdict.command.inj ((decode_encode hi).symm.trans ((congrArg decode h).trans (decode_encode hj)))

theorem commandWords_nodup : commandWords.Nodup :=
  List.Nodup.map_on
    (fun _ hi _ hj => encode_injective ((mem_wellFormedInstrs _).1 hi) ((mem_wellFormedInstrs _).1 hj))
    wellFormedInstrs_nodup

theorem commandWords_length : commandWords.length = 311 := by
  simp [commandWords, wellFormedInstrs]

/-! ### The rows of the opcode table -/

/-- A mask that leaves the low `k` bits free rounds a word down to a multiple of `2 ^ k`. -/
theorem and_allOnes_shiftLeft_eq {n : Nat} (w p : BitVec n) (k : Nat) :
    w &&& (BitVec.allOnes n <<< k) = p ↔ w.toNat / 2 ^ k * 2 ^ k = p.toNat := by
  have hmask : w &&& (BitVec.allOnes n <<< k) = (w >>> k) <<< k := by
    ext i hi
    by_cases hk : k ≤ i
    · simp [Nat.not_lt.2 hk, Nat.add_sub_cancel' hk, BitVec.getLsbD_eq_getElem hi]
    · simp [Nat.not_le.1 hk]
  have hle : w.toNat / 2 ^ k * 2 ^ k < 2 ^ n := lt_of_le_of_lt (Nat.div_mul_le_self _ _) w.isLt
  rw [hmask, ← BitVec.toNat_inj, BitVec.toNat_shiftLeft, BitVec.toNat_ushiftRight, Nat.shiftRight_eq_div_pow,
    Nat.shiftLeft_eq, Nat.mod_eq_of_lt hle]

/-- A row whose mask leaves no bit free holds its pattern alone. -/
theorem matches_iff_of_full {r : OpcodeRow} (hmask : r.mask = BitVec.allOnes 16) (w : Cmd) :
    r.matches w = true ↔ w.toNat = r.pattern.toNat := by
  rw [OpcodeRow.matches, beq_iff_eq, hmask, BitVec.and_allOnes, BitVec.toNat_inj]

/-- A row whose mask leaves the low `k` bits free holds its pattern with each operand of `k` bits. -/
theorem matches_iff_of_operand {r : OpcodeRow} {k : Nat} (hk : 2 ^ k ≤ 256) (hmask : r.mask = BitVec.allOnes 16 <<< k)
    (hpattern : 2 ^ k ∣ r.pattern.toNat) (w : Cmd) :
    r.matches w = true ↔ ∃ x : Byte, x.toNat < 2 ^ k ∧ w.toNat = r.pattern.toNat + x.toNat := by
  obtain ⟨q, hq⟩ := hpattern
  rw [OpcodeRow.matches, beq_iff_eq, hmask, and_allOnes_shiftLeft_eq]
  constructor
  · intro h
    have hlow : w.toNat % 2 ^ k < 2 ^ k := Nat.mod_lt _ (Nat.two_pow_pos k)
    refine ⟨BitVec.ofNat 8 (w.toNat % 2 ^ k), ?_⟩
    rw [BitVec.toNat_ofNat, Nat.mod_eq_of_lt (lt_of_lt_of_le hlow hk), ← h]
    exact ⟨hlow, (Nat.div_add_mod' _ _).symm⟩
  · rintro ⟨x, hx, hw⟩
    rw [hw, hq, Nat.mul_add_div (Nat.two_pow_pos k), Nat.div_eq_of_lt hx, Nat.add_zero, Nat.mul_comm]

/-- A claim about some instruction, constructor by constructor. -/
theorem exists_instr_iff {P : Instr → Prop} :
    (∃ i, P i) ↔ P .nop ∨ P .init ∨ (∃ b, P (.absorb b)) ∨ P .final ∨ (∃ x, P (.rdword x)) ∨ (∃ x, P (.rdbyte x)) ∨
      ∃ x, P (.rdhex x) := by
  constructor
  · rintro ⟨i, hi⟩
    cases i with
    | nop => exact .inl hi
    | init => exact .inr (.inl hi)
    | absorb b => exact .inr (.inr (.inl ⟨b, hi⟩))
    | final => exact .inr (.inr (.inr (.inl hi)))
    | rdword x => exact .inr (.inr (.inr (.inr (.inl ⟨x, hi⟩))))
    | rdbyte x => exact .inr (.inr (.inr (.inr (.inr (.inl ⟨x, hi⟩)))))
    | rdhex x => exact .inr (.inr (.inr (.inr (.inr (.inr ⟨x, hi⟩)))))
  · rintro (h | h | ⟨_, h⟩ | h | ⟨_, h⟩ | ⟨_, h⟩ | ⟨_, h⟩) <;> exact ⟨_, h⟩

/-- R54: a word lies in a row exactly when it decodes to a command of the row's mnemonic. -/
theorem matches_iff_decode {row : OpcodeRow} (hrow : row ∈ opcodeTable) (w : Cmd) :
    row.matches w = true ↔ ∃ i, decode w = .command i ∧ i.mnemonic = row.mnemonic := by
  simp only [decode_eq_command, exists_instr_iff, ← BitVec.toNat_inj, encode_toNat]
  simp only [opcodeTable, List.mem_cons, List.not_mem_nil, or_false] at hrow
  rcases hrow with rfl | rfl | rfl | rfl | rfl | rfl | rfl
  · rw [matches_iff_of_full (by decide)]
    simp [Instr.mnemonic, Instr.wf]
  · rw [matches_iff_of_full (by decide)]
    simp [Instr.mnemonic, Instr.wf]
  · rw [matches_iff_of_operand (k := 8) (by decide) (by decide) (by decide)]
    have hbyte (x : Byte) : x.toNat < 256 := x.isLt
    simp [Instr.mnemonic, Instr.wf, hbyte]
  · rw [matches_iff_of_full (by decide)]
    simp [Instr.mnemonic, Instr.wf]
  · rw [matches_iff_of_operand (k := 2) (by decide) (by decide) (by decide)]
    simp [Instr.mnemonic, Instr.wf, Nat.lt_succ_iff]
  · rw [matches_iff_of_operand (k := 4) (by decide) (by decide) (by decide)]
    simp [Instr.mnemonic, Instr.wf, Nat.lt_succ_iff]
  · rw [matches_iff_of_operand (k := 5) (by decide) (by decide) (by decide)]
    simp [Instr.mnemonic, Instr.wf, Nat.lt_succ_iff]

/-- The rows have different mnemonics. -/
theorem opcodeTable_mnemonic_injOn {row row' : OpcodeRow} (h : row ∈ opcodeTable) (h' : row' ∈ opcodeTable)
    (hm : row.mnemonic = row'.mnemonic) : row = row' := by
  have hall : ∀ r ∈ opcodeTable, ∀ r' ∈ opcodeTable, r.mnemonic = r'.mnemonic → r = r' := by decide
  exact hall row h row' h' hm

/-! ### The assembler -/

/-- R53: the command format, with the opcode shifted above the operand. -/
theorem commandWord_eq_or (op : BitVec 4) (imm : Byte) :
    commandWord op imm = op.setWidth 16 <<< 12 ||| imm.setWidth 16 := by
  have hop := op.isLt
  have himm := imm.isLt
  apply BitVec.eq_of_toNat_eq
  rw [commandWord_toNat, BitVec.toNat_or, BitVec.toNat_shiftLeft, BitVec.toNat_setWidth, BitVec.toNat_setWidth,
    Nat.shiftLeft_eq, Nat.mod_eq_of_lt (a := imm.toNat) (by omega), Nat.mod_eq_of_lt (by omega),
    Nat.mod_eq_of_lt (by omega), Nat.mul_comm op.toNat, ← Nat.two_pow_add_eq_or_of_lt (i := 12) (by omega)]

/-- R60: the word of a line is the encoding of the command the line stands for. -/
theorem assemble_eq (line : AsmLine) : assemble line = line.instr?.map encode := by
  have hor {f : Byte → Instr} (op : BitVec 4) (hf : ∀ b, encode (f b) = commandWord op b) (o : Option Byte) :
      o.map (fun b => op.setWidth 16 <<< 12 ||| b.setWidth 16) = (o.map f).map encode := by
    rw [Option.map_map]
    exact congrArg (o.map ·) (funext fun b => ((hf b).trans (commandWord_eq_or op b)).symm)
  cases line with
  | nop => rfl
  | init => rfl
  | absorb o =>
    cases o with
    | number n => exact hor 2#4 (fun _ => rfl) _
    | quoted b => exact hor (f := .absorb) 2#4 (fun _ => rfl) (some b)
  | final => rfl
  | rdword o => exact hor 4#4 (fun _ => rfl) _
  | rdbyte n => exact hor 5#4 (fun _ => rfl) _
  | rdhex n => exact hor 6#4 (fun _ => rfl) _

theorem toNat_le_of_indexOf? {bound n : Nat} {x : Byte} (h : indexOf? bound n = some x) : x.toNat ≤ bound := by
  unfold indexOf? at h
  split at h
  case isTrue hn => cases h; exact (Nat.mod_le n _).trans hn
  case isFalse => cases h

/-- R60: a line stands for no ill-formed command. -/
theorem wf_of_instr? {line : AsmLine} {i : Instr} (h : line.instr? = some i) : i.wf = true := by
  have hread {bound n : Nat} {f : Byte → Instr} (hf : ∀ x, (f x).wf = decide (x.toNat ≤ bound))
      (hi : (indexOf? bound n).map f = some i) : i.wf = true := by
    obtain ⟨x, hx, rfl⟩ := Option.map_eq_some_iff.1 hi
    rw [hf, decide_eq_true (toNat_le_of_indexOf? hx)]
  cases line with
  | nop => cases h; rfl
  | init => cases h; rfl
  | absorb o =>
    cases o with
    | number n =>
      obtain ⟨x, _, rfl⟩ := Option.map_eq_some_iff.1 h
      rfl
    | quoted b => cases h; rfl
  | final => cases h; rfl
  | rdword o => exact hread (fun _ => rfl) h
  | rdbyte n => exact hread (fun _ => rfl) h
  | rdhex n => exact hread (fun _ => rfl) h

theorem encode_eq_ofNat {i : Instr} {n : Nat} (h : (encode i).toNat = n) : encode i = BitVec.ofNat 16 n := by
  rw [← h, BitVec.ofNat_toNat, BitVec.setWidth_eq]

/-- The words of an operand range, in numbers. -/
theorem indexOf?_map_encode {f : Byte → Instr} {base bound : Nat} (hb : bound ≤ 255)
    (hf : ∀ x, (encode (f x)).toNat = base + x.toNat) (n : Nat) :
    ((indexOf? bound n).map f).map encode = if n ≤ bound then some (BitVec.ofNat 16 (base + n)) else none := by
  unfold indexOf?
  split
  case isTrue hn => simp [encode_eq_ofNat (hf _), Nat.mod_eq_of_lt (show n < 256 by omega)]
  case isFalse => rfl

/-! ### Presented words and runs that are over -/

theorem decode_of_tableWord {w : Nat} {i : Instr} (h : decodeTableWord 16 w = some i) :
    decode (tableWord 16 w) = .command i := by
  rw [decodeTableWord, if_neg (by decide)] at h
  split at h
  case h_1 j hj => rw [hj, Option.some.inj h]
  case h_2 => cases h

/-- R138: a run that is over has an engine that is not BUSY and no command left. -/
theorem quiet_of_runEnd {s : State} {e : RunEnd} (h : s.runEnd = some e) :
    s.isBusy = false ∧ ∀ w, .command w ∉ s.input := by
  unfold State.runEnd at h
  split at h
  · cases h
  case isFalse hc =>
    refine ⟨?_, fun w hw => hc (List.any_eq_true.2 ⟨_, hw, rfl⟩)⟩
    cases hf : s.fsm <;> simp [hf, State.isBusy] at h ⊢

/-- An idle edge is no command, and taking it does not end a run. -/
theorem runEnd_of_idle {s : State} {rest : List HostMove} (h : s.input = .idle :: rest) :
    ({ s with input := rest } : State).runEnd = s.runEnd := by
  simp only [State.runEnd, h, List.any_cons]; rfl

end Sys2Proof.Machine
end

section
/-! PROOF. The statements of 30_encoding.md: the decoder against the encoder, the verdict table and the opcode table (R53 to
R59), the assembler (R60), and a step of an engine that is not BUSY (R52). -/

open Sys2Proof Sys2Proof.Machine

/-- Settles O1: a word is illegal, out of range, or the encoding of the well-formed command it decodes to. -/
theorem decodeEncodeAgree : Obligations.DecodeEncodeAgree := by
  unfold Obligations.DecodeEncodeAgree
  exact fun w i => decode_eq_command

/-- Settles O2: the verdict by the three kinds of word, the count by the list of the well-formed instructions. -/
theorem decodeVerdictOfEveryWord : Obligations.DecodeVerdictOfEveryWord := by
  unfold Obligations.DecodeVerdictOfEveryWord
  refine ⟨fun w => ⟨decode_eq_illegal, decode_eq_operandRange, fun hl hr => ?_⟩,
    ⟨commandWords, commandWords_nodup, commandWords_length, mem_commandWords⟩, fun s w rest e hf hin hd => ?_⟩
  · have hcommand : decode w = commandOf (opField w) (BitVec.ofNat 8 (w.toNat % 256)) := by
      rw [← immField_eq_ofNat]; exact decode_of_legal hl hr
    refine ⟨?_, ?_, ?_, ?_, ?_, ?_, ?_⟩ <;> intro hop <;> simp [hcommand, commandOf, opField_toNat, hop]
  · have hfault : s.fsm ≠ .fault := isErr_eq_false.1 (isErr_eq_false_of hf)
    exact (step_accept (isBusy_eq_false_of hf) hin).trans (accept_error (s := { s with input := rest }) hfault hd)

/-- Settles O3: rows of different mnemonics share no word, since a word decodes to one command. -/
theorem decodeAgreesWithOpcodeTable : Obligations.DecodeAgreesWithOpcodeTable := by
  unfold Obligations.DecodeAgreesWithOpcodeTable
  refine ⟨fun w row hrow => matches_iff_decode hrow w, fun w row hrow row' hrow' hm hm' => ?_, fun i => ?_⟩
  · obtain ⟨i, hd, hi⟩ := (matches_iff_decode hrow w).1 hm
    obtain ⟨j, hd', hj⟩ := (matches_iff_decode hrow' w).1 hm'
    cases hd.symm.trans hd'
    exact opcodeTable_mnemonic_injOn hrow hrow' (hi.symm.trans hj)
  · cases i <;> simp [opcodeTable, Instr.mnemonic]

/-- Settles O5: a line's word is the encoding of its command, which is well formed. -/
theorem assembledLinesDecode : Obligations.AssembledLinesDecode := by
  unfold Obligations.AssembledLinesDecode
  refine ⟨rfl, rfl, rfl, fun n => ?_, fun b => ?_, fun n => ?_, rfl, rfl, rfl, rfl, fun n => ?_, fun n => ?_,
    fun line => ?_, fun line i => ?_⟩
  · rw [assemble_eq]
    exact indexOf?_map_encode le_rfl (fun x => encode_toNat (.absorb x)) n
  · rw [assemble_eq]
    exact congrArg some (encode_eq_ofNat (encode_toNat (.absorb b)))
  · rw [assemble_eq]
    exact indexOf?_map_encode (by decide) (fun x => encode_toNat (.rdword x)) n
  · rw [assemble_eq]
    exact indexOf?_map_encode (by decide) (fun x => encode_toNat (.rdbyte x)) n
  · rw [assemble_eq]
    exact indexOf?_map_encode (by decide) (fun x => encode_toNat (.rdhex x)) n
  · rw [assemble_eq, Option.map_eq_none_iff]
  · rw [assemble_eq]
    constructor
    · intro h
      exact ⟨encode i, by rw [h]; rfl, decode_encode (wf_of_instr? h)⟩
    · rintro ⟨w, hw, hd⟩
      obtain ⟨j, hj, rfl⟩ := Option.map_eq_some_iff.1 hw
      rw [hj, Verdict.command.inj ((decode_encode (wf_of_instr? hj)).symm.trans hd)]

/-- Settles O4: seven concrete words. -/
theorem decodeOfWrittenOutWords : Obligations.DecodeOfWrittenOutWords := by
  unfold Obligations.DecodeOfWrittenOutWords
  decide

/-- Settles O6: the word is accepted, and decodes to the command. -/
theorem stepRunsDecodedCommand : Obligations.StepRunsDecodedCommand := by
  unfold Obligations.StepRunsDecodedCommand
  have hstep (s : State) (w : Cmd) (rest : List HostMove) (i : Instr) (hb : s.isBusy = false)
      (hin : s.input = .command w :: rest) (hd : decode w = .command i) : step s = exec i { s with input := rest } :=
    (step_accept hb hin).trans (accept_command hd)
  exact ⟨hstep, fun s w i hb hd => hstep (s.withFetchWord 16 w) _ s.input i hb rfl (decode_of_tableWord hd)⟩

/-- Settles O8: a run that is over has only idle edges to take before a reset. -/
theorem quietEngineHoldsItsState : Obligations.QuietEngineHoldsItsState := by
  unfold Obligations.QuietEngineHoldsItsState
  refine ⟨fun s hb h => step_quiet_nil hb h, fun s rest hb h => step_quiet_idle hb h, fun s e he hr => ?_⟩
  obtain ⟨hb, hc⟩ := quiet_of_runEnd he
  cases hin : s.input with
  | nil =>
    rw [List.tail_nil, State.with_input_self hin]
    exact ⟨step_quiet_nil hb hin, he⟩
  | cons mv rest =>
    cases mv with
    | reset => exact absurd ⟨rest, hin⟩ hr
    | idle => exact ⟨step_quiet_idle hb hin, (runEnd_of_idle hin).trans he⟩
    | command w => exact absurd (hin ▸ List.mem_cons_self) (hc w)
end

section
/-! SUPPORT. The bits of the padded message (R37, R63), its blocks as a partition (R66), and the length bytes as numbers (R38). -/

namespace Sys2Proof.Machine

open Sys2Proof

/-! ### The length bytes -/

theorem byteAt_toNat {n : Nat} (v : BitVec n) (j : Nat) : (byteAt v j).toNat = v.toNat / 2 ^ (8 * j) % 256 := by
  rw [byteAt_eq_ofNat, BitVec.toNat_ofNat]

/-- R63 (c), R65: the bytes of the length field, least significant first. -/
theorem le64_lengthField_getD_toNat (m : List Byte) {j : Nat} (hj : j < 8) :
    ((le64 (lengthField m)).getD j 0#8).toNat = 8 * m.length % 2 ^ 64 / 2 ^ (8 * j) % 256 := by
  rw [le64_getD _ hj, byteAt_toNat, lengthField, BitVec.toNat_ofNat]

/-! ### The bits -/

theorem bitsOf_append (m l : List Byte) : bitsOf (m ++ l) = bitsOf m ++ bitsOf l := List.flatMap_append

theorem bitsOf_length (m : List Byte) : (bitsOf m).length = 8 * m.length := by
  induction m with
  | nil => rfl
  | cons b m ih =>
    have hb : (bitsOfByte b).length = 8 := by simp [bitsOfByte]
    rw [bitsOf, List.flatMap_cons, List.length_append, hb, ← bitsOf, ih, List.length_cons]
    omega

/-- The padding byte is the one set bit and seven zero bits. -/
theorem bitsOf_padByte : bitsOf [0x80#8] = [true] ++ List.replicate 7 false := by decide

theorem bitsOf_replicate_zero (n : Nat) : bitsOf (List.replicate n 0#8) = List.replicate (8 * n) false := by
  have hbyte : bitsOfByte 0#8 = List.replicate 8 false := by decide
  rw [bitsOf, List.flatMap_replicate, hbyte, List.flatten_replicate_replicate, Nat.mul_comm]

/-- The zero bits of R63 (b): those of the padding byte and those of the zero bytes (R64). -/
def zeroBits (n : Nat) : Nat := 7 + 8 * zeroCount n

theorem zeroBits_lt (n : Nat) : zeroBits n < 512 := by rw [zeroBits, zeroCount_eq]; omega

/-- R63 (b): the zero bits bring the length to 448 modulo 512. -/
theorem zeroBits_mod (n : Nat) : (8 * n + 1 + zeroBits n) % 512 = 448 := by rw [zeroBits, zeroCount_eq]; omega

/-- R63, R64: the padded message in bits. -/
theorem bitsOf_paddedMessage (m : List Byte) :
    bitsOf (paddedMessage m)
      = bitsOf m ++ [true] ++ List.replicate (zeroBits m.length) false ++ bitsOf (le64 (lengthField m)) := by
  simp only [paddedMessage, bitsOf_append, bitsOf_padByte, bitsOf_replicate_zero, zeroBits, List.replicate_add,
    List.append_assoc]

/-! ### The blocks -/

/-- R64, R66: the padded message is as long as its blocks. -/
theorem paddedMessage_length_eq (m : List Byte) : (paddedMessage m).length = 64 * blockCount m.length := by
  rw [paddedMessage_length, zeroCount_eq, blockCount]; omega

theorem blocks_length (p : List Byte) : (blocks p).length = p.length / 64 := by simp [blocks]

theorem length_of_mem_blocks {p block : List Byte} (h : block ∈ blocks p) : block.length = 64 := by
  obtain ⟨i, hi, rfl⟩ := List.mem_map.1 h
  have hlt : i < p.length / 64 := List.mem_range.1 hi
  rw [List.length_take, List.length_drop]; omega

/-- The first `k` pieces of 64 bytes, put together. -/
theorem flatten_map_take_drop (p : List Byte) (k : Nat) :
    ((List.range k).map fun i => (p.drop (64 * i)).take 64).flatten = p.take (64 * k) := by
  induction k with
  | zero => rfl
  | succ k ih => simp [List.range_succ, ih, Nat.mul_succ, List.take_add]

theorem blocks_flatten {p : List Byte} (h : p.length % 64 = 0) : (blocks p).flatten = p := by
  rw [blocks, flatten_map_take_drop, List.take_of_length_le (by omega)]

end Sys2Proof.Machine
end

section
/-! PROOF. The statements of 40_padding_length.md: ABSORB and FINAL as the padding unit executes them (R67 to R72), the padded
message and its blocks (R63 to R66), and stream equivalence (R76, R79). -/

open Sys2Proof Sys2Proof.Machine

/-- Settles O53: 64 rounds after FINAL when the length fits into the block, and 64 more for the length block when it does not. -/
theorem finalYieldsDigestState : Obligations.FinalYieldsDigestState := by
  unfold Obligations.FinalYieldsDigestState
  intro s m hs hr
  obtain ⟨u, hu, hd⟩ : ∃ u, run (if m.length % 64 ≤ 55 then 64 else 128) (finalPad s) = .next u ∧
      u.Digested m s.ecode (issued s.input) := by
    split
    · next hm => exact hs.run_finalPad_of_le hm hr
    · next hm => exact hs.run_finalPad_of_gt (Nat.lt_of_not_le hm) hr
  exact ⟨finalPad s, u, exec_final_idle hs.idle, hu, hd.done, hd.digest, hd.rnd_zero, hd.ecode_eq, hd.issued_eq⟩

/-- Settles O54: the stream of ABSORBs and FINAL reaches the digest state from an engine that has absorbed nothing, and INIT makes
one of any engine in IDLE or DONE. -/
theorem streamEquivalence : Obligations.StreamEquivalence := by
  unfold Obligations.StreamEquivalence
  intro s m rest hr h
  rw [← noReset_issued] at hr
  obtain ⟨t, ⟨k, hk⟩, hd⟩ : ∃ t, Reaches s t ∧ t.Digested m s.ecode (issued rest) := by
    rcases h with ⟨hs, hq⟩ | ⟨hs, hq⟩
    · exact hs.reaches_digest hq hr
    · exact reaches_digest_of_hash hs hq hr
  exact ⟨k, t, hk, hd.done, hd.digest, hd.ecode_eq, hd.issued_eq⟩

/-- Settles O25: ABSORB's next state below the 64th byte of a block and at it. -/
theorem absorbStoresByte : Obligations.AbsorbStoresByte := by
  unfold Obligations.AbsorbStoresByte
  intro s b hs
  refine ⟨fun hf => ⟨absorbByte b s, exec_absorb_idle hs b, ?_⟩, fun hf => ⟨absorbByte b s, exec_absorb_idle hs b, ?_⟩⟩
  · have hfill : (s.fill + 1#6).toNat = s.fill.toNat + 1 := by
      rw [BitVec.toNat_add, BitVec.toNat_ofNat]; omega
    rw [absorbByte_of_lt hf]
    exact ⟨rfl, fun a => Memory.read_write s.buf s.fill a b, BitVec.toNat_add _ _, hfill⟩
  · rw [absorbByte_of_eq hf]
    exact ⟨rfl, fun a => Memory.read_write s.buf s.fill a b, BitVec.toNat_add _ _⟩

/-- Settles O26: the block FINAL leaves in the buffer, byte by byte. -/
theorem finalPadsBlock : Obligations.FinalPadsBlock := by
  unfold Obligations.FinalPadsBlock
  intro s hs
  refine ⟨finalPad s, exec_final_idle hs, by rw [finalPad_eq], fun a => ?_⟩
  simp only [read_finalPad, apply_ite BitVec.toNat, byteAt_toNat]
  rfl

/-- Settles O49: the zero bits of the padding byte and of the zero bytes are the fewest, being less than 512. -/
theorem paddedMessageBits : Obligations.PaddedMessageBits := by
  unfold Obligations.PaddedMessageBits
  intro m
  have hlen : (bitsOf (paddedMessage m)).length = 512 * blockCount m.length := by
    rw [bitsOf_length, paddedMessage_length_eq]; omega
  have hpos : 0 < blockCount m.length := Nat.succ_pos _
  exact ⟨zeroBits m.length, zeroBits_lt _, bitsOf_paddedMessage m, by rw [bitsOf_length, zeroBits_mod],
    by omega, by omega, le64_length _, fun j hj => le64_lengthField_getD_toNat m hj⟩

/-- Settles O50: the padded message is a whole number of blocks long, and the blocks of such a sequence partition it. -/
theorem paddedBlockCount : Obligations.PaddedBlockCount := by
  unfold Obligations.PaddedBlockCount
  intro m
  have hlen := paddedMessage_length_eq m
  refine ⟨?_, fun block => length_of_mem_blocks, blocks_flatten (by omega)⟩
  rw [blocks_length, hlen, Nat.mul_div_cancel_left _ (by decide), blockCount]
end

section
/-! PROOF. The statements of 41_init.md: NOP (R80), INIT (R77, R78, R81), and the states that have absorbed nothing (R78, R128). -/

namespace Sys2Proof.Machine

/-- R16, R78, R128: nothing is absorbed in IDLE exactly when the counters are clear and H is the IV; W and buf do not matter. -/
theorem absorbed_nil_iff {s : State} :
    s.Absorbed [] ↔ s.fsm = .idle ∧ s.rnd = 0#6 ∧ s.L = 0#64 ∧ s.fill = 0#6 ∧ s.H = iv := by
  constructor
  · intro h
    exact ⟨h.idle, h.rnd_zero, h.len, BitVec.eq_of_toNat_eq h.fill_eq, h.chained⟩
  · rintro ⟨hidle, hrnd, hL, hfill, hH⟩
    exact ⟨hidle, hrnd, hL, congrArg BitVec.toNat hfill, hH, nofun⟩

/-- R30: nothing is absorbed at reset. -/
theorem reset_absorbed : State.reset.Absorbed [] := absorbed_nil_iff.2 ⟨rfl, rfl, rfl, rfl, rfl⟩

/-- R128: nothing is absorbed after the reset action, whatever the state before it. -/
theorem resetAction_absorbed (s : State) : (resetAction s).Absorbed [] := absorbed_nil_iff.2 (by simp)

end Sys2Proof.Machine

open Sys2Proof Sys2Proof.Machine

/-- Settles O21: NOP answers the state it is given. -/
theorem nopChangesNothing : Obligations.NopChangesNothing := by
  unfold Obligations.NopChangesNothing
  exact exec_nop

/-- Settles O22: in IDLE and in DONE, INIT is `initMessage`, whose H is the written-out IV. -/
theorem initStartsMessage : Obligations.InitStartsMessage := by
  unfold Obligations.InitStartsMessage
  exact fun s hs => exec_init hs

/-- Settles O51: reset, the reset action and INIT each clear the counters and load the IV. -/
theorem messageStartsEmpty : Obligations.MessageStartsEmpty := by
  unfold Obligations.MessageStartsEmpty
  refine ⟨reset_absorbed, ?_, fun s hs => ⟨initMessage s, exec_init hs, initMessage_absorbed s⟩⟩
  rintro s t ⟨rest, hin⟩ hstep
  cases (step_reset hin).symm.trans hstep
  exact resetAction_absorbed _
end

section
/-! SUPPORT. The quadrant of a round by bounds on its number (R92), the rotator by bits and as a number (R94), and one round in
numbers (R95). -/

namespace Sys2Proof.Machine

open Sys2Proof

/-! ### The quadrant's selections (R86, R87, R92) -/

/-- R92: the quadrant of a round, by bounds on the round number. -/
theorem quadrant_eq_ite (r : BitVec 6) :
    quadrant r = if r.toNat < 16 then .q0 else if r.toNat < 32 then .q1 else if r.toNat < 48 then .q2 else .q3 := by
  revert r
  decide

theorem auxMux_quadrant (r : BitVec 6) (x y z : Word) :
    auxMux (quadrant r) x y z =
      if r.toNat < 16 then auxF x y z else if r.toNat < 32 then auxG x y z
      else if r.toNat < 48 then auxHf x y z else auxI x y z := by
  rw [quadrant_eq_ite]
  split_ifs <;> rfl

/-- R87: the message index as a number. -/
theorem kIndex_toNat (r : BitVec 6) :
    (kIndex r).toNat =
      if r.toNat < 16 then r.toNat % 16 else if r.toNat < 32 then (5 * r.toNat + 1) % 16
      else if r.toNat < 48 then (3 * r.toNat + 5) % 16 else 7 * r.toNat % 16 := by
  rw [kIndex, quadrant_eq_ite]
  split_ifs <;> exact BitVec.toNat_ofNat _ _

/-! ### The rotator (R94) -/

theorem getLsbD_rotl32 (v : Word) (s : BitVec 5) {i : Nat} (hi : i < 32) :
    (rotl32 v s).getLsbD i = v.getLsbD ((i + 32 - s.toNat) % 32) := by
  have hs := s.isLt
  rw [rotl32, BitVec.getLsbD_or, BitVec.getLsbD_shiftLeft, BitVec.getLsbD_ushiftRight]
  by_cases hlt : i < s.toNat
  · have e : (i + 32 - s.toNat) % 32 = 32 - s.toNat + i := by omega
    simp [hlt, e]
  · have e : (i + 32 - s.toNat) % 32 = i - s.toNat := by omega
    have hhigh : v.getLsbD (32 - s.toNat + i) = false := v.getLsbD_of_ge _ (by omega)
    simp [hlt, e, hi, hhigh]

/-- The rotator as a number: the bits shifted out on the left come back in the low places, which the shift left zero. -/
theorem rotl32_toNat (v : Word) (s : BitVec 5) :
    (rotl32 v s).toNat = v.toNat * 2 ^ s.toNat % 2 ^ 32 + v.toNat / 2 ^ (32 - s.toNat) := by
  have hpow : 2 ^ s.toNat * 2 ^ (32 - s.toNat) = 2 ^ 32 := by
    rw [← Nat.pow_add, Nat.add_sub_cancel' s.isLt.le]
  have hhigh : v.toNat * 2 ^ s.toNat % 2 ^ 32 = 2 ^ s.toNat * (v.toNat % 2 ^ (32 - s.toNat)) := by
    rw [← hpow, Nat.mul_comm v.toNat, Nat.mul_mod_mul_left]
  have hlow : v.toNat / 2 ^ (32 - s.toNat) < 2 ^ s.toNat := by
    rw [Nat.div_lt_iff_lt_mul (Nat.two_pow_pos _), hpow]
    exact v.isLt
  rw [rotl32, BitVec.toNat_or, BitVec.toNat_shiftLeft, BitVec.toNat_ushiftRight, Nat.shiftLeft_eq, Nat.shiftRight_eq_div_pow,
    hhigh, Nat.two_pow_add_eq_or_of_lt hlow]

/-! ### One round (R95) -/

/-- R95: the word that a round computes, as a number, by the mux's selection. -/
theorem roundWords_b_toNat (r : BitVec 6) (w : Words4) (m : Word) :
    (roundWords r w m).b.toNat =
      (let sum := (w.a.toNat + (auxMux (quadrant r) w.b w.c w.d).toNat + m.toNat + (tRom r).toNat) % 2 ^ 32
       sum * 2 ^ (sRom r).toNat % 2 ^ 32 + sum / 2 ^ (32 - (sRom r).toNat) + w.b.toNat) % 2 ^ 32 := by
  simp only [roundWords, BitVec.toNat_add, rotl32_toNat, Nat.mod_add_mod]

end Sys2Proof.Machine
end

section
/-! SUPPORT. The sines of R84 in the Gaussian integers: sin n is the imaginary part of (exp I)^n, and exp I is nearly a Taylor sum,
which is a Gaussian integer over a factorial, so comparisons of integers decide the floors. -/

namespace Sys2Proof.Machine

open Sys2Proof

/-- `k! * (1 + I + I^2/2! + … + I^k/k!)`. -/
def taylorExpI : Nat → GaussianInt
  | 0 => 1
  | k + 1 => (k + 1 : Nat) * taylorExpI k + ⟨0, 1⟩ ^ (k + 1)

theorem toComplex_taylorExpI (k : Nat) :
    (taylorExpI k : ℂ) = k.factorial * ∑ m ∈ Finset.range (k + 1), Complex.I ^ m / m.factorial := by
  induction k with
  | zero => simp [taylorExpI]
  | succ k ih =>
    have hI : ((⟨0, 1⟩ : GaussianInt) : ℂ) = Complex.I := by simp [GaussianInt.toComplex_def']
    have hne : ((k + 1).factorial : ℂ) ≠ 0 := Nat.cast_ne_zero.2 (Nat.factorial_ne_zero _)
    rw [taylorExpI, map_add, map_mul, map_pow, map_natCast, hI, ih, Finset.sum_range_succ _ (k + 1), mul_add,
      mul_div_cancel₀ _ hne, Nat.factorial_succ]
    push_cast
    ring

/-- The remainder of the Taylor sum, by Mathlib's bound for exp on the unit disc. -/
theorem norm_exp_I_sub_taylorExpI_div_le (k : Nat) :
    ‖Complex.exp Complex.I - taylorExpI k / k.factorial‖ ≤ (k + 2) / ((k + 1).factorial * (k + 1)) := by
  have hne : (k.factorial : ℂ) ≠ 0 := Nat.cast_ne_zero.2 (Nat.factorial_ne_zero _)
  rw [toComplex_taylorExpI, mul_div_cancel_left₀ _ hne]
  refine (Complex.exp_bound (by simp) k.succ_pos).trans_eq ?_
  simp [div_eq_mul_inv, add_assoc, one_add_one_eq_two]

/-- Powers of two numbers of the unit disc differ by at most the exponent times what the numbers differ by. -/
theorem norm_pow_sub_pow_le {x y : ℂ} (hx : ‖x‖ ≤ 1) (hy : ‖y‖ ≤ 1) (n : Nat) : ‖x ^ n - y ^ n‖ ≤ n * ‖x - y‖ := by
  induction n with
  | zero => simp
  | succ n ih =>
    have hsplit : x ^ (n + 1) - y ^ (n + 1) = x ^ n * (x - y) + (x ^ n - y ^ n) * y := by ring
    have hleft : ‖x ^ n * (x - y)‖ ≤ ‖x - y‖ := by
      rw [norm_mul, norm_pow]
      exact mul_le_of_le_one_left (norm_nonneg _) (pow_le_one₀ (norm_nonneg _) hx)
    have hright : ‖(x ^ n - y ^ n) * y‖ ≤ n * ‖x - y‖ := by
      rw [norm_mul]
      exact (mul_le_of_le_one_right (norm_nonneg _) hy).trans ih
    calc ‖x ^ (n + 1) - y ^ (n + 1)‖ ≤ ‖x ^ n * (x - y)‖ + ‖(x ^ n - y ^ n) * y‖ := hsplit ▸ norm_add_le _ _
      _ ≤ ‖x - y‖ + n * ‖x - y‖ := add_le_add hleft hright
      _ = (n + 1 : Nat) * ‖x - y‖ := by push_cast; ring

/-- The Taylor sum that the bounds below use: 17 terms, over 16!. -/
theorem taylorExpI_16 : taylorExpI 16 = ⟨11304631621681, 17605920611984⟩ := by decide

/-- The 17 terms stop where the sum still lies in the unit disc. -/
theorem norm_taylorExpI_16_div_le_one : ‖(taylorExpI 16 : ℂ) / Nat.factorial 16‖ ≤ 1 := by
  have hnorm : (taylorExpI 16).norm ≤ (Nat.factorial 16 : ℤ) ^ 2 := by rw [taylorExpI_16]; decide
  have hsq : ‖(taylorExpI 16 : ℂ)‖ ^ 2 ≤ (Nat.factorial 16 : ℝ) ^ 2 := by
    rw [Complex.sq_norm, ← GaussianInt.intCast_real_norm]
    exact_mod_cast hnorm
  rw [norm_div, Complex.norm_natCast]
  exact div_le_one_of_le₀ (le_of_sq_le_sq hsq (Nat.cast_nonneg _)) (Nat.cast_nonneg _)

/-- `16!^n` times the approximation of sin n. The power is taken eight factors at a time, for evaluation. -/
def sineNumerator (n : Nat) : Int := ((taylorExpI 16 ^ 8) ^ (n / 8) * taylorExpI 16 ^ (n % 8)).im

theorem sineNumerator_eq (n : Nat) : sineNumerator n = (taylorExpI 16 ^ n).im := by
  rw [sineNumerator, ← pow_mul, ← pow_add, Nat.div_add_mod]

theorem im_taylorExpI_16_div_pow (n : Nat) :
    (((taylorExpI 16 : ℂ) / Nat.factorial 16) ^ n).im = sineNumerator n / (Nat.factorial 16 : ℝ) ^ n := by
  rw [sineNumerator_eq, GaussianInt.intCast_im, map_pow, div_pow, ← Nat.cast_pow, Complex.div_natCast_im, Nat.cast_pow]

theorem im_exp_I_pow (n : Nat) : (Complex.exp Complex.I ^ n).im = Real.sin n := by
  rw [← Complex.exp_nat_mul, Complex.exp_im]
  simp

theorem norm_exp_I_sub_taylorExpI_16_div_le :
    ‖Complex.exp Complex.I - taylorExpI 16 / Nat.factorial 16‖ ≤ 18 / (Nat.factorial 17 * 17) :=
  (norm_exp_I_sub_taylorExpI_div_le 16).trans_eq (by norm_num)

theorem abs_sin_sub_sineNumerator_le (n : Nat) :
    |Real.sin n - sineNumerator n / (Nat.factorial 16 : ℝ) ^ n| ≤ n * (18 / (Nat.factorial 17 * 17)) := by
  have hexp : ‖Complex.exp Complex.I‖ ≤ 1 := by simp [Complex.norm_exp]
  rw [← im_exp_I_pow, ← im_taylorExpI_16_div_pow, ← Complex.sub_im]
  calc |(Complex.exp Complex.I ^ n - ((taylorExpI 16 : ℂ) / Nat.factorial 16) ^ n).im|
      ≤ ‖Complex.exp Complex.I ^ n - ((taylorExpI 16 : ℂ) / Nat.factorial 16) ^ n‖ := Complex.abs_im_le_norm _
    _ ≤ n * ‖Complex.exp Complex.I - taylorExpI 16 / Nat.factorial 16‖ :=
      norm_pow_sub_pow_le hexp norm_taylorExpI_16_div_le_one n
    _ ≤ n * (18 / (Nat.factorial 17 * 17)) := by gcongr; exact norm_exp_I_sub_taylorExpI_16_div_le

/-- R84: the ROM's entries against the approximations of the 64 sines, as integers: the fractional parts stay at least 1/128 away
from 0 and from 1. The Taylor sum is put in as a number first, so that each sine takes a few products of integers. -/
theorem tRom_sineNumerator_bounds : ∀ r : BitVec 6,
    (128 * (tRom r).toNat + 1) * (Nat.factorial 16 : ℤ) ^ (r.toNat + 1) ≤ 2 ^ 39 * |sineNumerator (r.toNat + 1)| ∧
      2 ^ 39 * |sineNumerator (r.toNat + 1)| ≤ (128 * (tRom r).toNat + 127) * (Nat.factorial 16 : ℤ) ^ (r.toNat + 1) := by
  unfold sineNumerator
  rw [taylorExpI_16]
  decide

/-- The error of the approximations is too small to cross an integer at the ROM's scale. -/
theorem scaled_error_lt {n : Nat} (hn : n ≤ 64) : 2 ^ 32 * (n * (18 / (Nat.factorial 17 * 17)) : ℝ) < 1 / 128 := by
  have hn' : (n : ℝ) ≤ 64 := mod_cast hn
  norm_num [Nat.factorial]
  linarith

/-- R84: the floor of the scaled sine, from integer bounds on its approximation. -/
theorem floor_abs_sin_eq {n : Nat} {T : ℤ} (hn : n ≤ 64)
    (hlow : (128 * T + 1) * (Nat.factorial 16 : ℤ) ^ n ≤ 2 ^ 39 * |sineNumerator n|)
    (hhigh : 2 ^ 39 * |sineNumerator n| ≤ (128 * T + 127) * (Nat.factorial 16 : ℤ) ^ n) :
    ⌊(2 : ℝ) ^ 32 * |Real.sin n|⌋ = T := by
  have hpos : (0 : ℝ) < (Nat.factorial 16 : ℝ) ^ n := by positivity
  have hlow' : 128 * (T : ℝ) + 1 ≤ 2 ^ 39 * |sineNumerator n / (Nat.factorial 16 : ℝ) ^ n| := by
    rw [abs_div, abs_of_pos hpos, ← mul_div_assoc, le_div_iff₀ hpos]
    exact_mod_cast hlow
  have hhigh' : 2 ^ 39 * |sineNumerator n / (Nat.factorial 16 : ℝ) ^ n| ≤ 128 * (T : ℝ) + 127 := by
    rw [abs_div, abs_of_pos hpos, ← mul_div_assoc, div_le_iff₀ hpos]
    exact_mod_cast hhigh
  obtain ⟨hbelow, habove⟩ := abs_le.1 ((abs_abs_sub_abs_le _ _).trans (abs_sin_sub_sineNumerator_le n))
  have herr := scaled_error_lt hn
  rw [Int.floor_eq_iff]
  exact ⟨by linarith, by linarith⟩

end Sys2Proof.Machine
end

section
/-! PROOF. The statements of 42_compression.md: the auxiliary functions and the rotator (R88 to R91, R94), the ROMs and the message
index (R84 to R87), the round (R95), the end of a block (R96, R97), and the 64 steps of a block (R82). -/

open Sys2Proof Sys2Proof.Machine

/-- Settles O34, by the two values of the bit that selects. -/
theorem auxiliaryFunctionsBitwise : Obligations.AuxiliaryFunctionsBitwise := by
  unfold Obligations.AuxiliaryFunctionsBitwise
  intro x y z i hi
  refine ⟨?_, ?_, ?_, ?_⟩
  · simp only [auxF, BitVec.getLsbD_or, BitVec.getLsbD_and, BitVec.getLsbD_not, hi, decide_true, Bool.true_and]
    cases x.getLsbD i <;> simp
  · simp only [auxG, BitVec.getLsbD_or, BitVec.getLsbD_and, BitVec.getLsbD_not, hi, decide_true, Bool.true_and]
    cases z.getLsbD i <;> simp
  · simp only [auxHf, BitVec.getLsbD_xor]
  · simp only [auxI, BitVec.getLsbD_xor, BitVec.getLsbD_or, BitVec.getLsbD_not, hi, decide_true, Bool.true_and]

/-- Settles O35: a bit below the amount comes from the right shift, another from the left shift. -/
theorem rotatorMovesEveryBit : Obligations.RotatorMovesEveryBit := by
  unfold Obligations.RotatorMovesEveryBit
  exact fun v s i hi => getLsbD_rotl32 v s hi

/-- Settles O37: the shift ROM by its 64 addresses; the message index by quadrant, its formulas being linear in r modulo 16. -/
theorem shiftAndIndexSchedule : Obligations.ShiftAndIndexSchedule := by
  unfold Obligations.ShiftAndIndexSchedule
  have hshift : ∀ r : BitVec 6, (sRom r).toNat
        = [7, 12, 17, 22, 5, 9, 14, 20, 4, 11, 16, 23, 6, 10, 15, 21].getD (4 * (r.toNat / 16) + r.toNat % 4) 0 ∧
      4 ≤ (sRom r).toNat ∧ (sRom r).toNat ≤ 23 := by decide
  intro r
  obtain ⟨htable, hlow, hhigh⟩ := hshift r
  refine ⟨htable, hlow, hhigh, ?_⟩
  rintro n (rfl | rfl)
  · exact kIndex_toNat r
  · rw [kIndex_toNat]
    split_ifs <;> omega

/-- Settles O36: the ROM's entries lie within the bounds that their approximations' errors leave. -/
theorem roundConstantsAreSines : Obligations.RoundConstantsAreSines := by
  unfold Obligations.RoundConstantsAreSines
  intro r
  obtain ⟨hlow, hhigh⟩ := tRom_sineNumerator_bounds r
  have hfloor := floor_abs_sin_eq (n := r.toNat + 1) r.isLt hlow hhigh
  rw [← hfloor, Nat.cast_succ]

/-- Settles O38: the round as a number, the message word as four bytes, and the step of a round before the last. -/
theorem roundStepComputesRound : Obligations.RoundStepComputesRound := by
  unfold Obligations.RoundStepComputesRound
  refine ⟨fun r w m => ⟨rfl, ?_⟩, fun buf k => ?_, fun s b hlt => ⟨s.rnd + 1#6, ?_, ?_⟩⟩
  · rw [roundWords_b_toNat, auxMux_quadrant]
    rfl
  · simp only [messageWord_toNat, Nat.mul_comm, Nat.add_zero]
  · rw [BitVec.toNat_add, BitVec.toNat_ofNat]
    omega
  · exact roundStep_of_ne b (fun h => by simp [h] at hlt)

/-- Settles O39: the end of each kind of block, and the length block byte by byte. -/
theorem lastRoundEndsBlock : Obligations.LastRoundEndsBlock := by
  unfold Obligations.LastRoundEndsBlock
  intro s hs
  refine ⟨roundStep_last_comp hs, roundStep_last_compLast hs, ?_, fun a => ?_⟩
  · rw [roundStep_last_compPad hs]
    rfl
  · simp only [roundStep_last_compPad hs, read_lengthBlock]
    split_ifs with hhigh hlow
    · omega
    · exact byteAt_toNat s.L _
    · rfl
    · omega

/-- Settles O40: what the 64 rounds of a block leave. -/
theorem sixtyFourStepsCompressBlock : Obligations.SixtyFourStepsCompressBlock := by
  unfold Obligations.SixtyFourStepsCompressBlock
  intro s b hb hrnd hW hr
  obtain ⟨t, ht, hend⟩ := run_block hb hrnd hW hr
  refine ⟨t, ht, hend.H, hend.rnd, hend.L, hend.fill, hend.ecode, hend.rdata, hend.issued, ?_, ?_, ?_⟩
  · rintro rfl; exact hend.fsm
  · rintro rfl; exact hend.fsm
  · rintro rfl; exact ⟨hend.fsm, hend.pad_W rfl⟩
end

section
/-! SUPPORT. The digest's words, bytes and hex characters as numbers (R8, R100, R103), and a read command that completes. -/

namespace Sys2Proof.Machine

open Sys2Proof

/-! ### The digest in H -/

/-- R8, R100: byte n of the digest lies in word n div 4, in the order A, B, C, D. -/
theorem word_ofNat_div_toNat (h : Words4) {n : Nat} (hn : n < 16) :
    (h.word (BitVec.ofNat 2 (n / 4))).toNat =
      if n < 4 then h.a.toNat else if n < 8 then h.b.toNat else if n < 12 then h.c.toNat else h.d.toNat := by
  obtain hq | hq | hq | hq : n / 4 = 0 ∨ n / 4 = 1 ∨ n / 4 = 2 ∨ n / 4 = 3 := by omega
  · rw [hq, if_pos (by omega)]; rfl
  · rw [hq, if_neg (by omega), if_pos (by omega)]; rfl
  · rw [hq, if_neg (by omega), if_neg (by omega), if_pos (by omega)]; rfl
  · rw [hq, if_neg (by omega), if_neg (by omega), if_neg (by omega)]; rfl

/-- R100: a digest byte, by the number n of the byte. -/
theorem digestByte_toNat (h : Words4) {j : BitVec 4} {n : Nat} (hj : j.toNat = n) :
    (digestByte h j).toNat =
      (if n < 4 then h.a.toNat else if n < 8 then h.b.toNat else if n < 12 then h.c.toNat else h.d.toNat)
        / 2 ^ (8 * (n % 4)) % 256 := by
  subst hj
  rw [digestByte, byteAt_toNat, word_ofNat_div_toNat h j.isLt]

/-- R103: the high nibble of a digest byte comes before the low one. -/
theorem digestNibble_toNat (h : Words4) (p : BitVec 5) :
    (digestNibble h p).toNat =
      if p.toNat % 2 = 0 then (digestByte h (BitVec.ofNat 4 (p.toNat / 2))).toNat / 16
      else (digestByte h (BitVec.ofNat 4 (p.toNat / 2))).toNat % 16 := by
  have hbyte := (digestByte h (BitVec.ofNat 4 (p.toNat / 2))).isLt
  simp only [digestNibble, apply_ite BitVec.toNat, BitVec.extractLsb'_toNat, Nat.shiftRight_eq_div_pow]
  split_ifs <;> omega

theorem hexChar_toNat (n : BitVec 4) :
    (hexChar n).toNat = if n.toNat ≤ 9 then 0x30 + n.toNat else 0x61 + (n.toNat - 10) := by
  have hn := n.isLt
  simp only [hexChar, apply_ite BitVec.toNat, BitVec.toNat_ofNat]
  split_ifs <;> omega

/-! ### Reads that complete -/

theorem readCommand_done_of_le {s : State} (h : s.fsm = .done) {n : Nat} {x : Byte} (hx : x.toNat ≤ n) (v : Word) :
    readCommand n x v s = { s with rdata := v } := by
  rw [readCommand_done h, if_neg (Nat.not_lt.2 hx)]

theorem exec_rdword_done {s : State} (h : s.fsm = .done) {w : Byte} (hw : w.toNat ≤ 3) :
    exec (.rdword w) s = .next { s with rdata := s.H.word (w.setWidth 2) } := by
  rw [exec_rdword, readCommand_done_of_le h hw]

theorem exec_rdbyte_done {s : State} (h : s.fsm = .done) {j : Byte} (hj : j.toNat ≤ 15) :
    exec (.rdbyte j) s = .next { s with rdata := (digestByte s.H (j.setWidth 4)).setWidth 32 } := by
  rw [exec_rdbyte, readCommand_done_of_le h hj]

theorem exec_rdhex_done {s : State} (h : s.fsm = .done) {p : Byte} (hp : p.toNat ≤ 31) :
    exec (.rdhex p) s = .next { s with rdata := (hexChar (digestNibble s.H (p.setWidth 5))).setWidth 32 } := by
  rw [exec_rdhex, readCommand_done_of_le h hp]

/-- An operand that fits into k bits keeps its value there. -/
theorem setWidth_toNat_of_lt {x : Byte} {k : Nat} (hx : x.toNat < 2 ^ k) : (x.setWidth k).toNat = x.toNat := by
  rw [BitVec.toNat_setWidth, Nat.mod_eq_of_lt hx]

end Sys2Proof.Machine
end

section
/-! PROOF. The statements of 43_output.md: what RDWORD, RDBYTE and RDHEX read in DONE (R100 to R104), and that RDATA holds what was
read last (R107). -/

open Sys2Proof Sys2Proof.Machine

/-- Settles O31: the byte's word by the quotient of j by 4, and its place in the word by the remainder. -/
theorem rdbyteReadsByte : Obligations.RdbyteReadsByte := by
  unfold Obligations.RdbyteReadsByte
  intro s j hs hj
  refine ⟨_, exec_rdbyte_done hs hj, rfl, ?_⟩
  have hindex : (j.setWidth 4).toNat = j.toNat := setWidth_toNat_of_lt (Nat.lt_succ_of_le hj)
  exact (BitVec.toNat_setWidth_of_le (by decide)).trans (digestByte_toNat s.H hindex)

/-- Settles O32: the character of the nibble, the nibble of byte p div 2. -/
theorem rdhexReadsCharacter : Obligations.RdhexReadsCharacter := by
  unfold Obligations.RdhexReadsCharacter
  intro s p hs hp
  refine ⟨_, exec_rdhex_done hs hp, rfl, ?_⟩
  intro j byte n
  have hindex : (p.setWidth 5).toNat = p.toNat := setWidth_toNat_of_lt (Nat.lt_succ_of_le hp)
  have hj : (BitVec.ofNat 4 (p.toNat / 2)).toNat = j := by rw [BitVec.toNat_ofNat]; omega
  have hbyte : (digestByte s.H (BitVec.ofNat 4 (p.toNat / 2))).toNat = byte := digestByte_toNat s.H hj
  have hn : (digestNibble s.H (p.setWidth 5)).toNat = n := by rw [digestNibble_toNat, hindex, hbyte]
  rw [BitVec.toNat_setWidth_of_le (by decide), hexChar_toNat, hn]

/-- Settles O42: of the effects a step can have, only a reset and a read write RDATA. -/
theorem rdataHoldsLastRead : Obligations.RdataHoldsLastRead := by
  unfold Obligations.RdataHoldsLastRead
  intro s t h hne
  obtain ⟨e, q, he, rfl⟩ := step_effect_of h
  cases he with
  | none => exact absurd rfl hne
  | reset hr => exact .inl ⟨hr, rfl⟩
  | @round b _ =>
    obtain ⟨-, -, -, hrdata, -⟩ := roundStep_frame b { s with input := q }
    exact absurd hrdata hne
  | raised => exact absurd rfl hne
  | init => exact absurd rfl hne
  | absorb => exact absurd (absorbByte_rdata _ _) hne
  | final => exact absurd (finalPad_rdata _) hne
  | @read i _ hf hi ha =>
    obtain ⟨x, hx⟩ := hi
    exact .inr ⟨hf, i, x, ha, hx⟩

/-- Settles O30: each legal index selects its word of H. -/
theorem rdwordReadsWord : Obligations.RdwordReadsWord := by
  unfold Obligations.RdwordReadsWord
  intro s hs
  exact ⟨exec_rdword_done hs (by decide), exec_rdword_done hs (by decide), exec_rdword_done hs (by decide),
    exec_rdword_done hs (by decide)⟩
end

section
/-! SUPPORT. Fault entry (R119) and the FAULT state (R120, R121): which words and commands raise an error, and what a step does that
enters FAULT or starts in it. -/

namespace Sys2Proof.Machine

open Sys2Proof

/-! ### What raises an error -/

/-- R111, R112: a word that decodes to an error, accepted in IDLE or DONE, takes the engine to FAULT. -/
theorem step_of_decode_error {s : State} {w : Cmd} {rest : List HostMove} {e : DecodeError}
    (hf : s.fsm = .idle ∨ s.fsm = .done) (hin : s.input = .command w :: rest) (hd : decode w = .error e) :
    step s = .next (raise (causeOf e) { s with input := rest }) :=
  (step_accept (isBusy_eq_false_of hf) hin).trans
    (accept_error (s := { s with input := rest }) (isErr_eq_false.1 (isErr_eq_false_of hf)) hd)

theorem not_illegal_of_outOfRange {w : Cmd} (hrsv : w.toNat / 256 % 16 = 0) (h : OutOfRangeWord w) : ¬ IllegalWord w := by
  unfold OutOfRangeWord at h
  unfold IllegalWord
  omega

/-- R116: the range of a read's index is checked before the FSM state. -/
theorem readCommand_of_gt {s : State} (hf : s.fsm = .idle ∨ s.fsm = .done) {n : Nat} {x : Byte} (hx : n < x.toNat)
    (v : Word) : readCommand n x v s = raise .operandRange s := by
  rcases hf with hf | hf
  · rw [readCommand_idle hf, if_pos hx]
  · rw [readCommand_done hf, if_pos hx]

theorem readCommand_idle_of_le {s : State} (hf : s.fsm = .idle) {n : Nat} {x : Byte} (hx : x.toNat ≤ n) (v : Word) :
    readCommand n x v s = raise .readBeforeDone s := by
  rw [readCommand_idle hf, if_neg (Nat.not_lt.2 hx)]

/-! ### Steps into FAULT and in FAULT -/

/-- A command that enters FAULT from another state does so by fault entry: none of its other effects reaches FAULT. -/
theorem exec_enters_fault {i : Instr} {s t : State} (h : exec i s = .next t) (hs : s.fsm ≠ .fault) (ht : t.fsm = .fault) :
    ∃ c, t = raise c s := by
  cases exec_cases h with
  | same _ hst => subst hst; exact absurd ht hs
  | init _ _ hst => simp [hst] at ht
  | absorb b _ hf hst =>
    rw [hst, absorbByte_fsm, hf] at ht
    split at ht <;> cases ht
  | final _ _ hst =>
    rw [hst, finalPad_fsm] at ht
    split at ht <;> cases ht
  | read v _ _ hst => subst hst; exact absurd ht hs
  | raised c _ _ _ hst => exact ⟨c, hst⟩

theorem roundStep_fsm_ne_fault {s : State} {b : Block} (hb : s.fsm = .busy b) : (roundStep b s).fsm ≠ .fault := by
  by_cases h : s.rnd = 63#6
  · rw [roundStep_last b h, endOfBlock_fsm]
    cases b <;> simp
  · simp [roundStep_fsm_of_ne b h, hb]

/-- R117, R119: a step that enters FAULT accepts a command in IDLE or DONE, and is fault entry. -/
theorem step_enters_fault {s t : State} (h : step s = .next t) (hs : s.fsm ≠ .fault) (ht : t.fsm = .fault) :
    (s.fsm = .idle ∨ s.fsm = .done) ∧
      ∃ c w rest, s.input = .command w :: rest ∧ t = raise c { s with input := rest } := by
  cases step_cases h with
  | reset _ _ hst => simp [hst] at ht
  | round b q hb _ _ hst => exact absurd (hst ▸ ht) (roundStep_fsm_ne_fault (s := { s with input := q }) hb)
  | quiet _ _ _ hst => subst hst; exact absurd ht hs
  | discard _ _ hf => exact absurd hf hs
  | error w rest e hf hin _ hst => exact ⟨hf, causeOf e, w, rest, hin, hst⟩
  | command w rest i hf hin _ hex =>
    obtain ⟨c, hst⟩ := exec_enters_fault hex hs ht
    exact ⟨hf, c, w, rest, hin, hst⟩

/-- R120, R121: a step in FAULT that is no reset takes a move of the host and leaves every register. -/
theorem step_in_fault {s t : State} (h : step s = .next t) (hs : s.fsm = .fault) (hr : ¬ s.AtReset) :
    ∃ q, t = { s with input := q } := by
  cases step_cases h with
  | reset rest hin => exact absurd ⟨rest, hin⟩ hr
  | round b q hb => simp [hs] at hb
  | quiet q _ _ hst => exact ⟨q, hst⟩
  | discard _ rest _ _ hst => exact ⟨rest, hst⟩
  | error _ _ _ hf => simp [hs] at hf
  | command _ _ _ hf => simp [hs] at hf

end Sys2Proof.Machine
end

section
/-! PROOF. The statements of 60_exceptions.md: the four causes (R111 to R114), fault entry (R117 to R119), the FAULT state (R120,
R121), and that no step stops (R115). -/

open Sys2Proof Sys2Proof.Machine

/-- Settles O14: the word decodes to the error. -/
theorem illegalCommandFaults : Obligations.IllegalCommandFaults := by
  unfold Obligations.IllegalCommandFaults
  exact fun s w rest hf hin h => step_of_decode_error hf hin (decode_of_illegal h)

/-- Settles O15: the decoder's check, and the same check in the form the three meanings share. -/
theorem operandRangeFaults : Obligations.OperandRangeFaults := by
  unfold Obligations.OperandRangeFaults
  refine ⟨fun s w rest hf hin hrsv h => ?_, fun s x hf => ⟨fun hx => ?_, fun hx => ?_, fun hx => ?_⟩⟩
  · exact step_of_decode_error hf hin (decode_of_outOfRange (not_illegal_of_outOfRange hrsv h) h)
  · rw [exec_rdword, readCommand_of_gt hf hx]; rfl
  · rw [exec_rdbyte, readCommand_of_gt hf hx]; rfl
  · rw [exec_rdhex, readCommand_of_gt hf hx]; rfl

/-- Settles O18: the step is fault entry with one of the four causes. -/
theorem errorsArePrecise : Obligations.ErrorsArePrecise := by
  unfold Obligations.ErrorsArePrecise
  intro s t h hs ht
  obtain ⟨_, c, w, rest, hin, rfl⟩ := step_enters_fault h hs ht
  obtain ⟨hlow, hhigh⟩ := c.code_bounds
  exact ⟨hlow, hhigh, w, rest, hin, rfl⟩

/-- Settles O20: without a reset a step in FAULT leaves every register, and a step into FAULT accepts a command. -/
theorem onlyResetLeavesFault : Obligations.OnlyResetLeavesFault := by
  unfold Obligations.OnlyResetLeavesFault
  refine fun s t h => ⟨fun hs ht => ?_, fun hs ht => (step_enters_fault h hs ht).1, fun hs hne => ?_⟩
  · by_contra hr
    obtain ⟨q, rfl⟩ := step_in_fault h hs hr
    exact ht hs
  · by_contra hr
    obtain ⟨q, rfl⟩ := step_in_fault h hs hr
    exact hne rfl

/-- Settles O10: every step is some effect. -/
theorem stepNeverStops : Obligations.StepNeverStops := by
  unfold Obligations.StepNeverStops
  exact exists_step_eq_next

/-- Settles O16: both meanings raise the error in DONE. -/
theorem sequenceAfterFinalFaults : Obligations.SequenceAfterFinalFaults := by
  unfold Obligations.SequenceAfterFinalFaults
  exact fun s hs => ⟨fun b => exec_absorb_done hs b, exec_final_done hs⟩

/-- Settles O17: an index in range leaves the check of the FSM state. -/
theorem readBeforeDoneFaults : Obligations.ReadBeforeDoneFaults := by
  unfold Obligations.ReadBeforeDoneFaults
  refine fun s x hs => ⟨fun hx => ?_, fun hx => ?_, fun hx => ?_⟩
  · rw [exec_rdword, readCommand_idle_of_le hs hx]; rfl
  · rw [exec_rdbyte, readCommand_idle_of_le hs hx]; rfl
  · rw [exec_rdhex, readCommand_idle_of_le hs hx]; rfl

/-- Settles O19: the engine is not BUSY, accepts the word without decoding it, and every meaning leaves the state. -/
theorem faultDiscardsEveryCommand : Obligations.FaultDiscardsEveryCommand := by
  unfold Obligations.FaultDiscardsEveryCommand
  intro s hs
  have hb : s.isBusy = false := isBusy_eq_false.2 (.inr (.inr hs))
  refine ⟨by simp [State.cmdReady, hb], fun w rest hin => ?_, exec_of_fault hs⟩
  exact (step_accept hb hin).trans (accept_of_fault (s := { s with input := rest }) hs w)
end

section
/-! SUPPORT. Runs that are over (R138), a BUSY engine's way to BUSY = 0 (R131, R140), and runs counted step by step that meet DONE
at their end only (R137). -/

namespace Sys2Proof.Machine

open Sys2Proof

/-- R22, R128: STATUS reads as at reset, since none of the registers in it keeps a value. -/
theorem resetAction_status (s : State) : (resetAction s).status = 0#32 := by
  calc (resetAction s).status = State.reset.status := rfl
    _ = 0#32 := by decide

/-! ### The end of a run -/

/-- The FSM state in which a run ends with this outcome (R138). -/
def RunEnd.fsm : RunEnd → Fsm
  | .digest => .done
  | .noDigest => .idle
  | .failed => .fault

theorem runEnd_eq_some_iff {s : State} {e : RunEnd} :
    s.runEnd = some e ↔ (∀ w, .command w ∉ s.input) ∧ s.fsm = e.fsm := by
  rw [← any_isCommand_eq_false, State.runEnd]
  cases s.input.any HostMove.isCommand with
  | true => simp
  | false => cases hf : s.fsm <;> cases e <;> simp [RunEnd.fsm]

theorem exists_runEnd_fsm_eq_iff {s : State} : (∃ e : RunEnd, s.fsm = e.fsm) ↔ s.isBusy = false := by
  rw [isBusy_eq_false]
  constructor
  · rintro ⟨e, he⟩
    cases e with
    | digest => exact .inr (.inl he)
    | noDigest => exact .inl he
    | failed => exact .inr (.inr he)
  · rintro (h | h | h)
    · exact ⟨.noDigest, h⟩
    · exact ⟨.digest, h⟩
    · exact ⟨.failed, h⟩

/-! ### The rounds left -/

/-- The rounds from StartCompress of a block to BUSY = 0 (R97): the length block follows a COMP_PAD block. -/
def Block.roundCount : Block → Nat
  | .comp => 64
  | .compPad => 128
  | .compLast => 64

/-- The rounds left to BUSY = 0. -/
def State.roundsLeft (s : State) : Nat :=
  match s.fsm with
  | .busy b => b.roundCount - s.rnd.toNat
  | .idle | .done | .fault => 0

theorem roundsLeft_of_busy {s : State} {b : Block} (h : s.fsm = .busy b) : s.roundsLeft = b.roundCount - s.rnd.toNat := by
  simp [State.roundsLeft, h]

theorem roundsLeft_of_not_busy {s : State} (h : s.isBusy = false) : s.roundsLeft = 0 := by
  rcases isBusy_eq_false.1 h with hf | hf | hf <;> simp [State.roundsLeft, hf]

theorem Block.roundCount_bounds (b : Block) : 64 ≤ b.roundCount ∧ b.roundCount ≤ 128 := by cases b <;> decide

theorem roundsLeft_eq_zero {s : State} : s.roundsLeft = 0 ↔ s.isBusy = false := by
  refine ⟨fun h => ?_, roundsLeft_of_not_busy⟩
  by_contra hb
  obtain ⟨b, hf⟩ := isBusy_eq_true.1 (Bool.eq_true_of_not_eq_false hb)
  rw [roundsLeft_of_busy hf] at h
  have := b.roundCount_bounds.1
  have := s.rnd.isLt
  omega

theorem exists_busy_of_roundsLeft {s : State} {n : Nat} (h : s.roundsLeft = n + 1) : ∃ b, s.fsm = .busy b := by
  rw [← isBusy_eq_true, ← Bool.not_eq_false, ← roundsLeft_eq_zero, h]
  exact Nat.succ_ne_zero n

theorem roundsLeft_le (s : State) : s.roundsLeft ≤ 128 := by
  cases hb : s.isBusy with
  | false => simp [roundsLeft_of_not_busy hb]
  | true =>
    obtain ⟨b, hf⟩ := isBusy_eq_true.1 hb
    rw [roundsLeft_of_busy hf]
    exact (Nat.sub_le _ _).trans b.roundCount_bounds.2

/-- R95 to R97: each round is one of the rounds left, the last of COMP_PAD with the 64 of the length block after it. -/
theorem roundsLeft_roundStep {s : State} {b : Block} (h : s.fsm = .busy b) :
    (roundStep b s).roundsLeft + 1 = s.roundsLeft := by
  rw [roundsLeft_of_busy h]
  by_cases hr : s.rnd = 63#6
  · rw [hr]
    cases b with
    | comp => rw [roundStep_last_comp hr]; rfl
    | compLast => rw [roundStep_last_compLast hr]; rfl
    | compPad => rw [roundStep_last_compPad hr]; rfl
  · have hlt : s.rnd.toNat < 63 := by
      have : s.rnd.toNat ≠ 63 := fun e => hr (BitVec.eq_of_toNat_eq e)
      have := s.rnd.isLt
      omega
    have hrnd : (roundStep b s).rnd.toNat = s.rnd.toNat + 1 := by
      rw [roundStep_of_ne b hr, BitVec.toNat_add]
      exact Nat.mod_eq_of_lt (by simp; omega)
    rw [roundsLeft_of_busy ((roundStep_fsm_of_ne b hr).trans h), hrnd]
    have := b.roundCount_bounds.1
    omega

/-- R140: a step of a BUSY engine that is no reset is a round. -/
theorem step_busy {s : State} {b : Block} (hb : s.fsm = .busy b) (hr : ¬ s.AtReset) :
    ∃ rest, step s = .next (roundStep b { s with input := rest }) := by
  obtain ⟨t, ht⟩ := exists_step_eq_next s
  have hbusy : s.isBusy = true := isBusy_eq_true.2 ⟨b, hb⟩
  cases step_cases ht with
  | reset rest hin => exact absurd ⟨rest, hin⟩ hr
  | round b' q hb' _ _ hst =>
    obtain rfl : b = b' := by simpa [hb] using hb'
    exact ⟨q, hst ▸ ht⟩
  | quiet _ hquiet => simp [hbusy] at hquiet
  | discard _ _ hf => simp [hb] at hf
  | error _ _ _ hf => simp [hb] at hf
  | command _ _ _ hf => simp [hb] at hf

/-- R140: BUSY = 0 comes within the rounds left, by a reset if not by the last round. -/
theorem run_until_ready (s : State) : ∃ k t, k ≤ s.roundsLeft ∧ run k s = .next t ∧ t.isBusy = false := by
  induction hn : s.roundsLeft generalizing s with
  | zero => exact ⟨0, s, le_rfl, run_zero s, roundsLeft_eq_zero.1 hn⟩
  | succ n ih =>
    by_cases hr : s.AtReset
    · obtain ⟨rest, hin⟩ := hr
      exact ⟨1, _, by omega, run_succ 0 (step_reset hin), rfl⟩
    · obtain ⟨b, hb⟩ := exists_busy_of_roundsLeft hn
      obtain ⟨rest, hs⟩ := step_busy hb hr
      have hleft : (roundStep b { s with input := rest }).roundsLeft + 1 = s.roundsLeft := roundsLeft_roundStep hb
      obtain ⟨k, t, hk, hrun, ht⟩ := ih (roundStep b { s with input := rest }) (by omega)
      exact ⟨k + 1, t, by omega, (run_succ k hs).trans hrun, ht⟩

/-! ### Runs that meet DONE at their end only -/

/-- The host's moves that a BUSY engine leaves as they are: none at all, or a command first, which is held (R131). -/
def Held (ms : List HostMove) : Prop := ms = [] ∨ ∃ w more, ms = .command w :: more

theorem step_busy_of_held {s : State} {b : Block} (hb : s.fsm = .busy b) (hh : Held s.input) :
    step s = .next (roundStep b s) := by
  rcases hh with hin | ⟨w, more, hin⟩
  · exact step_busy_nil hb hin
  · exact step_busy_command hb hin

/-- `n` steps lead from `s` to `t`, and before the last of them the engine is not in DONE. -/
structure RunsUndone (n : Nat) (s t : State) : Prop where
  run_eq : run n s = .next t
  undone : ∀ k < n, ∃ u, run k s = .next u ∧ u.fsm ≠ .done

theorem RunsUndone.refl (s : State) : RunsUndone 0 s s := ⟨run_zero s, nofun⟩

theorem RunsUndone.after_step {s u t : State} {n : Nat} (hs : s.fsm ≠ .done) (hu : step s = .next u) (h : RunsUndone n u t) :
    RunsUndone (n + 1) s t := by
  refine ⟨(run_succ n hu).trans h.run_eq, fun k hk => ?_⟩
  cases k with
  | zero => exact ⟨s, run_zero s, hs⟩
  | succ k => simpa only [run_succ k hu] using h.undone k (Nat.lt_of_succ_lt_succ hk)

theorem RunsUndone.trans {s t u : State} {m n : Nat} (h : RunsUndone m s t) (h' : RunsUndone n t u) :
    RunsUndone (m + n) s u := by
  refine ⟨(run_add m n h.run_eq).trans h'.run_eq, fun k hk => ?_⟩
  by_cases hkm : k < m
  · exact h.undone k hkm
  · obtain ⟨j, rfl⟩ := Nat.exists_eq_add_of_le (Nat.le_of_not_lt hkm)
    simpa only [run_add m j h.run_eq] using h'.undone j (Nat.lt_of_add_lt_add_left hk)

/-- R131, R137: the rounds left are taken one a step, and the host's moves still wait after them. -/
theorem runsUndone_roundsLeft {s : State} (hh : Held s.input) :
    ∃ t, RunsUndone s.roundsLeft s t ∧ t.input = s.input := by
  induction hn : s.roundsLeft generalizing s with
  | zero => exact ⟨s, .refl s, rfl⟩
  | succ n ih =>
    obtain ⟨b, hb⟩ := exists_busy_of_roundsLeft hn
    obtain ⟨-, -, -, -, hin⟩ := roundStep_frame b s
    have hleft := roundsLeft_roundStep hb
    obtain ⟨t, ht, hti⟩ := ih (s := roundStep b s) (hin.symm ▸ hh) (by omega)
    exact ⟨t, ht.after_step (by simp [hb]) (step_busy_of_held hb hh), hti.trans hin⟩

/-- R52, R131, R137: a command accepted in IDLE, the rounds it starts, and the further moves of the host still waiting. -/
theorem runsUndone_command {s t u : State} {i : Instr} {ms : List HostMove} (hs : s.fsm = .idle) (hi : i.wf = true)
    (hin : s.input = .command (encode i) :: ms) (hh : Held ms) (hex : exec i { s with input := ms } = .next t)
    (hti : t.input = ms) (hu : run t.roundsLeft t = .next u) : RunsUndone (t.roundsLeft + 1) s u ∧ u.input = ms := by
  have hstep : step s = .next t := by
    rw [step_accept (isBusy_eq_false.2 (.inl hs)) hin, accept_command (decode_encode hi), hex]
  obtain ⟨v, hv, hvi⟩ := runsUndone_roundsLeft (hti.symm ▸ hh : Held t.input)
  obtain rfl : u = v := Host.Outcome.next.inj (hu.symm.trans hv.run_eq)
  exact ⟨hv.after_step (by simp [hs]) hstep, hvi.trans hti⟩

/-! ### The steps of a message (R137) -/

section
variable {s : State} {m : List Byte} (h : s.Absorbed m)
include h

theorem State.Absorbed.roundsLeft_absorbByte (b : Byte) :
    (absorbByte b s).roundsLeft = if m.length % 64 = 63 then 64 else 0 := by
  have hfill : s.fill = 63#6 ↔ m.length % 64 = 63 := by rw [← h.fill_eq, ← BitVec.toNat_inj]; rfl
  by_cases hm : m.length % 64 = 63
  · rw [if_pos hm, roundsLeft_of_busy (by rw [absorbByte_fsm, if_pos (hfill.2 hm)]), absorbByte_rnd, if_pos (hfill.2 hm)]
    rfl
  · rw [if_neg hm, roundsLeft_eq_zero, isBusy_eq_false, absorbByte_fsm, if_neg (hfill.not.2 hm)]
    exact .inl h.idle

theorem State.Absorbed.roundsLeft_finalPad :
    (finalPad s).roundsLeft = if m.length % 64 ≤ 55 then 64 else 128 := by
  by_cases hm : m.length % 64 ≤ 55
  · rw [if_pos hm, roundsLeft_of_busy (by rw [finalPad_fsm, h.fill_eq, if_pos hm]), finalPad_rnd]
    rfl
  · rw [if_neg hm, roundsLeft_of_busy (by rw [finalPad_fsm, h.fill_eq, if_neg hm]), finalPad_rnd]
    rfl

/-- R67: one ABSORB, with the rounds of the block it completes. -/
theorem State.Absorbed.runsUndone_absorb {b : Byte} {ms : List HostMove}
    (hin : s.input = .command (encode (.absorb b)) :: ms) (hh : Held ms) (hr : noReset ms = true) :
    ∃ t, RunsUndone ((if m.length % 64 = 63 then 64 else 0) + 1) s t ∧ t.Absorbed (m ++ [b]) ∧ t.input = ms := by
  have hq := h.with_input ms
  obtain ⟨t, ht, hta⟩ : ∃ t, run (if m.length % 64 = 63 then 64 else 0) (absorbByte b { s with input := ms }) = .next t ∧
      t.Absorbed (m ++ [b]) := by
    split
    · next hm =>
      obtain ⟨t, ht, hta, -, -⟩ := hq.run_absorbByte_of_eq b hm hr
      exact ⟨t, ht, hta⟩
    · next hm => exact ⟨_, run_zero _, hq.absorbByte_of_lt b (by omega)⟩
  rw [← hq.roundsLeft_absorbByte b] at ht ⊢
  obtain ⟨hrun, hti⟩ := runsUndone_command h.idle rfl hin hh (exec_absorb_idle hq.idle b) (absorbByte_input b _) ht
  exact ⟨t, hrun, hta, hti⟩

/-- R69 to R72: FINAL, with the rounds of the one or two blocks it starts. -/
theorem State.Absorbed.runsUndone_final {ms : List HostMove}
    (hin : s.input = .command (encode .final) :: ms) (hh : Held ms) (hr : noReset ms = true) :
    ∃ t, RunsUndone ((if m.length % 64 ≤ 55 then 64 else 128) + 1) s t ∧ t.Digested m s.ecode (issued ms) ∧
      t.input = ms := by
  have hq := h.with_input ms
  obtain ⟨t, ht, hd⟩ : ∃ t, run (if m.length % 64 ≤ 55 then 64 else 128) (finalPad { s with input := ms }) = .next t ∧
      t.Digested m s.ecode (issued ms) := by
    split
    · next hm => exact hq.run_finalPad_of_le hm hr
    · next hm => exact hq.run_finalPad_of_gt (Nat.lt_of_not_le hm) hr
  rw [← hq.roundsLeft_finalPad] at ht ⊢
  obtain ⟨hrun, hti⟩ := runsUndone_command h.idle rfl hin hh (exec_final_idle hq.idle) (finalPad_input _) ht
  exact ⟨t, hrun, hd, hti⟩

end

/-- R67, R137: the ABSORBs of a message take one accepting step a byte and 64 rounds a full block. -/
theorem State.Absorbed.runsUndone_absorbs {s : State} (h : s.Absorbed []) {m : List Byte} {ms : List HostMove}
    (hin : s.input = present (m.map .absorb) ++ ms) (hh : Held ms) (hr : noReset ms = true) :
    ∃ t, RunsUndone (m.length + 64 * (m.length / 64)) s t ∧ t.Absorbed m ∧ t.input = ms := by
  induction m using List.reverseRecOn generalizing ms with
  | nil => exact ⟨s, .refl s, h, hin⟩
  | append_singleton m b ih =>
    obtain ⟨t, ht, hta, hti⟩ := ih (ms := .command (encode (.absorb b)) :: ms)
      (by rw [hin, List.map_append, present_append, List.append_assoc]; rfl) (.inr ⟨_, _, rfl⟩) (by simpa [noReset] using hr)
    obtain ⟨u, hu, hua, hui⟩ := hta.runsUndone_absorb hti hh hr
    have hcount : (m ++ [b]).length + 64 * ((m ++ [b]).length / 64)
        = m.length + 64 * (m.length / 64) + ((if m.length % 64 = 63 then 64 else 0) + 1) := by
      rw [List.length_append, List.length_singleton]
      split <;> omega
    exact ⟨u, hcount ▸ ht.trans hu, hua, hui⟩

end Sys2Proof.Machine
end

section
/-! PROOF. The statements of 70_reset_and_hazards.md: reset (R127), a BUSY engine (R131, R140), the end of a run (R138), and the
steps of a message (R137). -/

open Sys2Proof Sys2Proof.Machine

/-- Settles O11: every round is one of the at most 128 rounds left, and a reset ends BUSY at once. -/
theorem busyEndsWithin128Steps : Obligations.BusyEndsWithin128Steps := by
  unfold Obligations.BusyEndsWithin128Steps
  refine ⟨fun s b hb hr => step_busy hb hr, fun s => ?_⟩
  obtain ⟨k, t, hk, hrun, ht⟩ := run_until_ready s
  exact ⟨k, t, hk.trans (roundsLeft_le s), hrun, ht⟩

/-- Settles O55: the steps of the ABSORBs, then those of FINAL, whose rounds are the rest of the blocks of R66. -/
theorem roundStepsOfMessage : Obligations.RoundStepsOfMessage := by
  unfold Obligations.RoundStepsOfMessage
  intro s m rest hs hin hh hr
  obtain ⟨t, ht, hta, hti⟩ := hs.runsUndone_absorbs (m := m) (ms := .command (encode .final) :: rest)
    (by rw [hin, present_append, List.append_assoc]; rfl) (.inr ⟨_, _, rfl⟩) (by simpa [noReset] using hr)
  obtain ⟨u, hu, hd, hui⟩ := hta.runsUndone_final hti hh hr
  have hcount : m.length + 1 + 64 * ((m.length + 8) / 64 + 1)
      = m.length + 64 * (m.length / 64) + ((if m.length % 64 ≤ 55 then 64 else 128) + 1) := by
    split <;> omega
  have hrun := ht.trans hu
  rw [← hcount] at hrun
  exact ⟨⟨u, hrun.run_eq, hd.done, hd.digest, hui⟩, hrun.undone⟩

/-- Settles O7: a BUSY engine takes no command, an idle edge is taken with the round, and no round writes the moves. -/
theorem busyHoldsCommandsAndTakesRounds : Obligations.BusyHoldsCommandsAndTakesRounds := by
  unfold Obligations.BusyHoldsCommandsAndTakesRounds
  intro s b hb
  obtain ⟨-, -, -, -, hinput⟩ := roundStep_frame b s
  have hready : s.cmdReady = false := by rw [State.cmdReady, isBusy_eq_true.2 ⟨b, hb⟩]; rfl
  exact ⟨hready, fun w rest => step_busy_command hb, fun rest => step_busy_idle hb, step_busy_nil hb, hinput⟩

/-- Settles O9: each outcome has one FSM state, and these are the states with BUSY = 0. -/
theorem runEndsByState : Obligations.RunEndsByState := by
  unfold Obligations.RunEndsByState
  refine fun s => ⟨?_, runEnd_eq_some_iff, runEnd_eq_some_iff, runEnd_eq_some_iff⟩
  simp only [runEnd_eq_some_iff, exists_and_left, exists_runEnd_fsm_eq_iff]

/-- Settles O13: the step is the reset action, whatever the pins of the command. -/
theorem resetStepFromAnyState : Obligations.ResetStepFromAnyState := by
  unfold Obligations.ResetStepFromAnyState
  refine ⟨fun s rest h => ⟨_, step_reset h, ?_⟩, fun p q s hp hq => ?_⟩
  · exact ⟨rfl, rfl, rfl, rfl, rfl, rfl, rfl, rfl, resetAction_status _, rfl⟩
  · rw [edge, if_pos hp, edge, if_pos hq]
end
